-- ==== Sys2Proof/Word.lean ====
section
/-! DEFINITION. The word types of the block: the 72-bit command word, the 32-bit address operands and the 5-bit
response (spec 30_encoding R80, R81, R90). Values whose width is a parameter of the build (histories, indices) are
naturals, as in the notation of 00_scope R8 and R9: bits are lost only by an explicit mask. -/

namespace Sys2Proof

/-- A command word `CMD[71:0]` (R80). -/
abbrev CmdWord := BitVec 72

/-- A branch address or branch target: an unsigned 32-bit operand (R81). -/
abbrev Addr := BitVec 32

/-- A response `RESP[4:0] = {FAULT_CODE[2:0], FAULT, PRED}` (R90). -/
abbrev RespWord := BitVec 5

end Sys2Proof
end

