-- ==== Sys2Proof/Config.lean ====
section
/-! DEFINITION. What a build of the block fixes: the ten width parameters of 00_scope R6, within the legal ranges of
R7. The types hold every legal value and no other (U13: an illegal width is no build). No value of any parameter is
chosen: the build is the opaque constant `Config.build` (D9, U12; log 1 and log 2). -/

namespace Sys2Proof.Config

/-- An index width, a number of bits from 1 to 32 (R7), held as that number minus one.
DESIGN CHOICE (log 2), safe: the 32 values of the field are the 32 legal widths. -/
structure IndexWidth where
  minusOne : Fin 32
  deriving DecidableEq, Repr, Inhabited

/-- The number of bits of an index width. -/
abbrev IndexWidth.bits (w : IndexWidth) : Nat := w.minusOne.val + 1

/-- A history length of at least one bit, with no upper bound (R7 for `X_H`), held as that number minus one.
DESIGN CHOICE (log 2), safe. -/
structure HistoryWidth where
  minusOne : Nat
  deriving DecidableEq, Repr, Inhabited

/-- The number of bits of a history length. -/
abbrev HistoryWidth.bits (w : HistoryWidth) : Nat := w.minusOne + 1

/-- The parameters of a build (R6), fixed when the block is built: no command changes them.
`g` is `G`; `tL`, `tP`, `tGp`, `tC` are `T_L`, `T_P`, `T_GP`, `T_C`; `xL`, `xP`, `xW`, `xC`, `xH` are `X_L`, `X_P`,
`X_W`, `X_C`, `X_H`. -/
structure Params where
  g   : IndexWidth
  tL  : IndexWidth
  tP  : IndexWidth
  tGp : IndexWidth
  tC  : IndexWidth
  xL  : IndexWidth
  xP  : IndexWidth
  xW  : IndexWidth
  xC  : IndexWidth
  xH  : HistoryWidth
  deriving DecidableEq, Repr, Inhabited

/-- `T_H = max(T_GP, T_C)`, the stored width of the tournament path history (R6, R28). -/
abbrev Params.tH (p : Params) : Nat := max p.tGp.bits p.tC.bits

/-- The parameters of the block at hand. The spec leaves them open (D9) and so does the model: the constant has no
body, and a statement about it holds for every build. DESIGN CHOICE (log 1), safe. -/
opaque build : Params

end Sys2Proof.Config
end

