-- ==== Sys2Proof/Syntax.lean ====
section
/-! DEFINITION. The instructions: one constructor for each mnemonic of spec/opcode_table.json (the two rows of
INIT.UNKNOWN are one constructor, log 12), with the operands its format uses or carries (30_encoding R82 to R85).
Bits a format ignores are no operands (R86, log 11). -/

namespace Sys2Proof

/-- A branch direction: an outcome given to TRAIN or a prediction returned by PREDICT (R11). -/
inductive Dir where
  | notTaken
  | taken
  deriving DecidableEq, Repr, Inhabited

/-- The four schemes of the SCHEME register (R22). -/
inductive Scheme where
  | static
  | gshare
  | tournament
  | custom
  deriving DecidableEq, Repr, Inhabited

/-- The instructions. Constructors of one format with different schemes have the same command words: which of them a
word is depends on the mode SCHEME (R87). -/
inductive Instr where
  /-- INIT with selector 0 (R204). -/
  | initStatic
  /-- INIT with selector 1 (R205). -/
  | initGshare
  /-- INIT with selector 2 (R206). -/
  | initTournament
  /-- INIT with selector 3 (R207). -/
  | initCustom
  /-- INIT with a selector that names no scheme, 4 to 15 (R213). -/
  | initUnknown (sel : BitVec 4)
  /-- PREDICT in the mode Static (R208). -/
  | predictStatic (pc target : Addr) (isDirect : Bool)
  /-- PREDICT in the mode Gshare (R141). -/
  | predictGshare (pc target : Addr) (isDirect : Bool)
  /-- PREDICT in the mode Tournament (R162). -/
  | predictTournament (pc target : Addr) (isDirect : Bool)
  /-- PREDICT in the mode Custom (R186). -/
  | predictCustom (pc target : Addr) (isDirect : Bool)
  /-- TRAIN with IS_CONDITIONAL = 0, in any mode (R210). -/
  | trainNc (pc target : Addr) (outcome : Dir) (isCall isReturn isDirect : Bool)
  /-- TRAIN with IS_CONDITIONAL = 1 in the mode Static (R209). -/
  | trainStatic (pc target : Addr) (outcome : Dir) (isCall isReturn isDirect : Bool)
  /-- TRAIN with IS_CONDITIONAL = 1 in the mode Gshare (R143). -/
  | trainGshare (pc target : Addr) (outcome : Dir) (isCall isReturn isDirect : Bool)
  /-- TRAIN with IS_CONDITIONAL = 1 in the mode Tournament (R163). -/
  | trainTournament (pc target : Addr) (outcome : Dir) (isCall isReturn isDirect : Bool)
  /-- TRAIN with IS_CONDITIONAL = 1 in the mode Custom (R187). -/
  | trainCustom (pc target : Addr) (outcome : Dir) (isCall isReturn isDirect : Bool)
  /-- CLEANUP (R211). -/
  | cleanup
  /-- A word with a reserved OP, 4 to 7 (R214). -/
  | reserved (op : BitVec 3)
  deriving DecidableEq, Repr

end Sys2Proof
end

