-- ==== Sys2Proof/Machine/State.lean ====
section
/-! DEFINITION. The state of the block (spec 10_state), its stops, and the state after hardware reset. The scheme state
is the tagged union of R20: what the spec says holds no value is absent from the state, never a zero or a leftover
(R41, R261, U14). The model's own fields are `cfg` (the build's constants), `resp` (the response port) and `inputs`
(what the host is going to send); the block of the spec has no others (R26, R40). -/

namespace Sys2Proof.Machine

/-- The four states of a counter cell, in chain order (R100). -/
inductive Cell where
  | sn
  | wn
  | wt
  | st
  deriving DecidableEq, Repr

/-- The contents of a table: the entries that differ from the table's seed, by entry index (R60; log 5). An unlisted
entry holds the seed INIT gave it (R205 to R207). Canonical form: `Table.wf` in Machine/Ops.lean. -/
abbrev Table (α : Type) := List (Nat × α)

/-- A counter table: entries are 2-bit cells (R32 to R39, R100), seeded WN. -/
abbrev CounterTable := Table (BitVec 2)

/-- A local-history table: entries are histories (R30, R31), seeded 0. -/
abbrev HistoryTable := Table Nat

/-- The state of the Gshare scheme: `G_BHT` (R32) and `G_GHR` (R27). -/
structure GshareState where
  bht : CounterTable
  ghr : Nat
  deriving DecidableEq, Repr

/-- The state of the Tournament scheme, `T_LHT`, `T_LOCAL`, `T_GLOBAL`, `T_CHOOSER`, `T_PHR` (R30, R33, R34, R35, R28),
or of the Custom scheme, `X_LHT`, `X_LOCAL`, `X_GLOBAL`, `X_CHOOSER`, `X_PHR` (R31, R36, R37, R38, R29): the two have
the identical structural shape (R180). -/
structure HybridState where
  lht        : HistoryTable
  localTbl   : CounterTable
  globalTbl  : CounterTable
  chooserTbl : CounterTable
  phr        : Nat
  deriving DecidableEq, Repr

/-- The state of the one active scheme; the constructor is the SCHEME register (R20, R22). -/
inductive SchemeState where
  | static
  | gshare (g : GshareState)
  | tournament (h : HybridState)
  | custom (h : HybridState)
  deriving DecidableEq, Repr

/-- The states of the control FSM (R21). -/
inductive CtlState where
  | uninit
  | ready
  | faulted
  deriving DecidableEq, Repr

/-- The causes of a fatal fault, the codes of FAULT_CODE other than NONE (R23, R230). -/
inductive Cause where
  | configError
  | invariantViolation
  | protocolViolation
  | illegalCommand
  deriving DecidableEq, Repr

/-- The control FSM with what exists in each of its states (R20, R21, R24): CTL_STATE is the constructor. In UNINIT no
scheme state exists; in READY exactly the active scheme's does; in FAULTED there is the FAULT_CODE, and the scheme state
the fault left as it was, which nothing can observe any more (R237; log 3). -/
inductive Ctl where
  | uninit
  | ready (active : SchemeState)
  | faulted (cause : Cause) (left : Option SchemeState)
  deriving DecidableEq, Repr

/-- A response (R90): FAULT_CODE (none is NONE), FAULT, and the prediction, absent where PRED has no meaning (R91). -/
structure Response where
  faultCode : Option Cause
  fault     : Bool
  pred      : Option Dir
  deriving DecidableEq, Repr

/-- What the host can do to the block: present a command word, or pulse `rst` (R12, R92, R275). -/
inductive HostEvent where
  | command (w : CmdWord)
  | reset
  deriving DecidableEq, Repr

/-- The state of the machine. -/
structure State where
  /-- The width parameters of the build (R6); no step changes them (log 1). -/
  cfg    : Config.Params
  /-- CTL_STATE, SCHEME, FAULT_CODE and the active scheme's registers and tables (R20 to R38). -/
  ctl    : Ctl
  /-- The response port: what the last step answered, absent where it answered nothing (R90, R92; log 9). -/
  resp   : Option Response
  /-- What the host is going to send, next first (R12, R70; log 8). -/
  inputs : List HostEvent
  deriving DecidableEq, Repr

/-- Why the machine stops without a next state. The faults of the spec are no such stops: they are next states. -/
inductive Fault where
  /-- A table access outside the table, or an entry too wide for it: what `TblRead` and `TblWrite` require not to happen
  (R10). Raised by the table operations of Machine/Ops.lean alone. Safe; no instruction can reach it (R61; log 7). -/
  | outOfTable
  deriving DecidableEq, Repr

/-- Why an instruction is refused. -/
inductive Refusal where
  /-- The instruction has no meaning in the model. Raised by `exec`'s arms alone, and by none of them: every instruction
  of the table has its meaning. Safe. -/
  | notModelled (mnemonic : String)
  deriving DecidableEq, Repr

/-- The state right after hardware reset of a block built with the parameters `p` (R260): UNINIT, FAULT_CODE NONE, no
scheme state; no response, and nothing presented by the host yet. -/
def State.resetOf (p : Config.Params) : State :=
  { cfg := p, ctl := .uninit, resp := none, inputs := [] }

/-- The state right after hardware reset of the block at hand, whose parameters the spec leaves open (R260, D9). -/
def State.reset : State := State.resetOf Config.build

end Sys2Proof.Machine
end

