-- ==== Sys2Proof/Machine/Flags.lean ====
section
/-! DEFINITION. The counter cell's two operations `dir` and `upd` (spec 40_saturating_counter), the codes of every
coded register (R21, R22, R23, R100), and the block's one status flag with its registers as the ports show them (R24,
R90, R92). -/

namespace Sys2Proof.Machine

/-! The counter cell. -/

/-- The 2-bit code of a cell state: SN 0, WN 1, WT 2, ST 3 (R100). -/
def cellCode : Cell → BitVec 2
  | .sn => 0#2
  | .wn => 1#2
  | .wt => 2#2
  | .st => 3#2

/-- The cell state a stored entry holds, none if it is outside the four states (R107). With 2-bit storage every pattern
is a state (R39), so the last arm is never taken; it stands for the check the spec keeps (R232; log 6). -/
def cellOfCode (c : BitVec 2) : Option Cell :=
  match c.toNat with
  | 0 => some .sn
  | 1 => some .wn
  | 2 => some .wt
  | 3 => some .st
  | _ => none

/-- `dir(c)`: Taken if and only if the state is WT or ST (R101). -/
def dir : Cell → Dir
  | .sn | .wn => .notTaken
  | .wt | .st => .taken

/-- `upd(c, o)`: one step toward ST on Taken and toward SN on NotTaken, saturating (R103, R104). -/
def upd : Cell → Dir → Cell
  | .sn, .taken => .wn
  | .wn, .taken => .wt
  | .wt, .taken => .st
  | .st, .taken => .st
  | .sn, .notTaken => .sn
  | .wn, .notTaken => .sn
  | .wt, .notTaken => .wn
  | .st, .notTaken => .wt

/-! The codes of the control registers. -/

/-- The code of CTL_STATE (R21). -/
def ctlCode : CtlState → BitVec 2
  | .uninit => 0#2
  | .ready => 1#2
  | .faulted => 2#2

/-- The code of SCHEME (R22). -/
def schemeCode : Scheme → BitVec 2
  | .static => 0#2
  | .gshare => 1#2
  | .tournament => 2#2
  | .custom => 3#2

/-- The code of FAULT_CODE, none being NONE (R23, R230). -/
def causeCode : Option Cause → BitVec 3
  | none => 0#3
  | some .configError => 1#3
  | some .invariantViolation => 2#3
  | some .protocolViolation => 3#3
  | some .illegalCommand => 4#3

/-- The PRED bit: 1 Taken, and 0 for NotTaken and where there is no prediction (R90, R91). -/
def predBit : Option Dir → Bool
  | some .taken => true
  | some .notTaken | none => false

/-- `RESP[4:0] = {FAULT_CODE[2:0], FAULT, PRED}` (R90). -/
def respWord (r : Response) : RespWord :=
  causeCode r.faultCode ++ BitVec.ofBool r.fault ++ BitVec.ofBool (predBit r.pred)

/-! The control registers as views of the state. -/

/-- The scheme whose state this is: the SCHEME register's value (R22). -/
def schemeOf : SchemeState → Scheme
  | .static => .static
  | .gshare _ => .gshare
  | .tournament _ => .tournament
  | .custom _ => .custom

/-- CTL_STATE (R21). -/
def State.ctlState (s : State) : CtlState :=
  match s.ctl with
  | .uninit => .uninit
  | .ready _ => .ready
  | .faulted _ _ => .faulted

/-- SCHEME, which holds a value only in READY (R22; log 3). -/
def State.scheme (s : State) : Option Scheme :=
  match s.ctl with
  | .ready a => some (schemeOf a)
  | .uninit | .faulted _ _ => none

/-- The scheme state that exists, in FAULTED the one the fault left (R20, R237). -/
def State.active (s : State) : Option SchemeState :=
  match s.ctl with
  | .uninit => none
  | .ready a => some a
  | .faulted _ left => left

/-- FAULT_CODE, none being NONE; the `fault_code` port shows its code (R23, R92). -/
def State.faultCode (s : State) : Option Cause :=
  match s.ctl with
  | .faulted c _ => some c
  | .uninit | .ready _ => none

/-- The FAULT flag and the `fault` port: 1 exactly in FAULTED (R24, R92). -/
def State.faultFlag (s : State) : Bool := decide (s.ctlState = .faulted)

end Sys2Proof.Machine
end

