-- ==== Sys2Proof/WellFormed.lean ====
section
/-! DEFINITION. The terms of `Instr` that some command word stands for (30_encoding R87, R89). -/

namespace Sys2Proof

/-- INIT.UNKNOWN has a selector of 4 to 15 and RESERVED an OP of 4 to 7; every other term is well formed. -/
def Instr.wellFormed : Instr → Bool
  | .initUnknown sel => decide (4 ≤ sel.toNat)
  | .reserved op => decide (4 ≤ op.toNat)
  | .initStatic | .initGshare | .initTournament | .initCustom => true
  | .predictStatic .. | .predictGshare .. | .predictTournament .. | .predictCustom .. => true
  | .trainNc .. | .trainStatic .. | .trainGshare .. | .trainTournament .. | .trainCustom .. => true
  | .cleanup => true

end Sys2Proof
end

