-- ==== Sys2Proof/Decode.lean ====
section
/-! DEFINITION. Command words to instructions and back (30_encoding R80 to R89). The decoder is total: every 72-bit
word is some instruction (R88), a reserved OP being the instruction RESERVED and an unknown selector INIT.UNKNOWN. The
encoder is written from the field table of R80 and the formats of R82 to R85, apart from the decoder. -/

namespace Sys2Proof

/-- The direction a one-bit field means: 1 Taken, 0 NotTaken (R11). -/
def Dir.ofBool (b : Bool) : Dir := if b then .taken else .notTaken

/-- The one-bit field of a direction (R11). -/
def Dir.toBool : Dir → Bool
  | .notTaken => false
  | .taken => true

/-! The fields of the command word (R80). -/

/-- `OP`, bits 71:69. -/
def opField (w : CmdWord) : BitVec 3 := w.extractLsb' 69 3
/-- `IS_DIRECT`, bit 68. -/
def isDirectField (w : CmdWord) : Bool := w.getLsbD 68
/-- `IS_RETURN`, bit 67. -/
def isReturnField (w : CmdWord) : Bool := w.getLsbD 67
/-- `IS_CALL`, bit 66. -/
def isCallField (w : CmdWord) : Bool := w.getLsbD 66
/-- `IS_CONDITIONAL`, bit 65. -/
def isConditionalField (w : CmdWord) : Bool := w.getLsbD 65
/-- `OUTCOME`, bit 64. -/
def outcomeField (w : CmdWord) : Dir := Dir.ofBool (w.getLsbD 64)
/-- `TARGET`, bits 63:32. -/
def targetField (w : CmdWord) : Addr := w.extractLsb' 32 32
/-- `PC`, bits 31:0. -/
def pcField (w : CmdWord) : Addr := w.extractLsb' 0 32
/-- `SCHEME_SEL`, bits 3:0, which overlay `PC[3:0]`. -/
def schemeSelField (w : CmdWord) : BitVec 4 := w.extractLsb' 0 4

/-- INIT by its selector (R87, R203). -/
def decodeInit (sel : BitVec 4) : Instr :=
  match sel.toNat with
  | 0 => .initStatic
  | 1 => .initGshare
  | 2 => .initTournament
  | 3 => .initCustom
  | _ => .initUnknown sel

/-- The mode a PREDICT or TRAIN word is read in. In READY it is SCHEME (R87). Where SCHEME has no value (UNINIT,
FAULTED) no mode exists and no rule of the mode is executed (R200); the word is then called by the Static row.
DESIGN CHOICE (log 10), safe: `exec` does the same for all rows of the word there. -/
def readingMode (scheme : Option Scheme) : Scheme := scheme.getD .static

/-- PREDICT by the mode (R87, R201). -/
def decodePredict (mode : Scheme) (w : CmdWord) : Instr :=
  match mode with
  | .static => .predictStatic (pcField w) (targetField w) (isDirectField w)
  | .gshare => .predictGshare (pcField w) (targetField w) (isDirectField w)
  | .tournament => .predictTournament (pcField w) (targetField w) (isDirectField w)
  | .custom => .predictCustom (pcField w) (targetField w) (isDirectField w)

/-- TRAIN by IS_CONDITIONAL and then by the mode (R87, R202). -/
def decodeTrain (mode : Scheme) (w : CmdWord) : Instr :=
  if isConditionalField w then
    match mode with
    | .static => .trainStatic (pcField w) (targetField w) (outcomeField w) (isCallField w) (isReturnField w) (isDirectField w)
    | .gshare => .trainGshare (pcField w) (targetField w) (outcomeField w) (isCallField w) (isReturnField w) (isDirectField w)
    | .tournament => .trainTournament (pcField w) (targetField w) (outcomeField w) (isCallField w) (isReturnField w) (isDirectField w)
    | .custom => .trainCustom (pcField w) (targetField w) (outcomeField w) (isCallField w) (isReturnField w) (isDirectField w)
  else
    .trainNc (pcField w) (targetField w) (outcomeField w) (isCallField w) (isReturnField w) (isDirectField w)

/-- The instruction a command word is while the SCHEME register holds `scheme` (R87): OP is read first. -/
def decode (scheme : Option Scheme) (w : CmdWord) : Instr :=
  match (opField w).toNat with
  | 0 => decodeInit (schemeSelField w)
  | 1 => decodePredict (readingMode scheme) w
  | 2 => decodeTrain (readingMode scheme) w
  | 3 => .cleanup
  | _ => .reserved (opField w)

/-- The instruction of a table word, its bits numbered as the table numbers them, which is the numbering of `CMD`
(R80). The word alone gives no mode, so the rows that share a word all read as that word's Static row (log 10). A
number that is no 72-bit word is refused (log 19). -/
def decodeTableWord (nbits w : Nat) : Option Instr :=
  if nbits ≤ 72 ∧ w < 2 ^ 72 then some (decode none (BitVec.ofNat 72 w)) else none

/-! The encoder. -/

/-- A command word from its fields, most significant first (R80). -/
def packWord (op : BitVec 3) (isDirect isReturn isCall isConditional outcome : Bool) (target pc : Addr) : CmdWord :=
  op ++ BitVec.ofBool isDirect ++ BitVec.ofBool isReturn ++ BitVec.ofBool isCall ++ BitVec.ofBool isConditional
    ++ BitVec.ofBool outcome ++ target ++ pc

/-- Format I: `OP = 0`, the selector in `CMD[3:0]`, ignored bits 0 (R82, R93). -/
def packInit (sel : BitVec 4) : CmdWord :=
  packWord 0#3 false false false false false 0#32 (sel.setWidth 32)

/-- Format P: `OP = 1`, `IS_DIRECT`, `TARGET` and `PC`, ignored bits 0 (R83, R93). -/
def packPredict (pc target : Addr) (isDirect : Bool) : CmdWord :=
  packWord 1#3 isDirect false false false false target pc

/-- Format T: `OP = 2` and every field (R84). -/
def packTrain (isConditional : Bool) (pc target : Addr) (outcome : Dir) (isCall isReturn isDirect : Bool) : CmdWord :=
  packWord 2#3 isDirect isReturn isCall isConditional outcome.toBool target pc

/-- The command word of an instruction, ignored bits 0 (R82 to R86, R93). -/
def encode : Instr → CmdWord
  | .initStatic => packInit 0#4
  | .initGshare => packInit 1#4
  | .initTournament => packInit 2#4
  | .initCustom => packInit 3#4
  | .initUnknown sel => packInit sel
  | .predictStatic pc target d => packPredict pc target d
  | .predictGshare pc target d => packPredict pc target d
  | .predictTournament pc target d => packPredict pc target d
  | .predictCustom pc target d => packPredict pc target d
  | .trainNc pc target o c r d => packTrain false pc target o c r d
  | .trainStatic pc target o c r d => packTrain true pc target o c r d
  | .trainGshare pc target o c r d => packTrain true pc target o c r d
  | .trainTournament pc target o c r d => packTrain true pc target o c r d
  | .trainCustom pc target o c r d => packTrain true pc target o c r d
  | .cleanup => packWord 3#3 false false false false false 0#32 0#32
  | .reserved op => packWord op false false false false false 0#32 0#32

/-- The mode that tells an instruction's row from the other rows of its word; none where the word has one row (R87). -/
def Instr.rowMode : Instr → Option Scheme
  | .predictStatic .. | .trainStatic .. => some .static
  | .predictGshare .. | .trainGshare .. => some .gshare
  | .predictTournament .. | .trainTournament .. => some .tournament
  | .predictCustom .. | .trainCustom .. => some .custom
  | .initStatic | .initGshare | .initTournament | .initCustom | .initUnknown _ => none
  | .trainNc .. | .cleanup | .reserved _ => none

/-- The instruction's row is the one its word is read by while SCHEME holds `scheme`. -/
def Instr.readIn (i : Instr) (scheme : Option Scheme) : Bool :=
  match i.rowMode with
  | none => true
  | some m => decide (m = readingMode scheme)

/-! The opcode map as the spec's table of match and mask (R88), and the bits that matter. -/

/-- One (match, mask) pair of R88. -/
structure OpcodeRow where
  pattern : CmdWord
  mask    : CmdWord
  deriving DecidableEq, Repr

/-- A word matches a row when `CMD & mask = match` (R88). -/
def OpcodeRow.matchesWord (r : OpcodeRow) (w : CmdWord) : Bool := decide (w &&& r.mask = r.pattern)

/-- The eleven (match, mask) pairs of R88, in its order. -/
def opcodeRows : List OpcodeRow :=
  [ ⟨0x000000000000000000#72, 0xE0000000000000000F#72⟩,
    ⟨0x000000000000000001#72, 0xE0000000000000000F#72⟩,
    ⟨0x000000000000000002#72, 0xE0000000000000000F#72⟩,
    ⟨0x000000000000000003#72, 0xE0000000000000000F#72⟩,
    ⟨0x000000000000000004#72, 0xE0000000000000000C#72⟩,
    ⟨0x000000000000000008#72, 0xE00000000000000008#72⟩,
    ⟨0x200000000000000000#72, 0xE00000000000000000#72⟩,
    ⟨0x400000000000000000#72, 0xE20000000000000000#72⟩,
    ⟨0x420000000000000000#72, 0xE20000000000000000#72⟩,
    ⟨0x600000000000000000#72, 0xE00000000000000000#72⟩,
    ⟨0x800000000000000000#72, 0x800000000000000000#72⟩ ]

/-- The bits of a command word that its format uses or carries (R82 to R85): those an `Instr` keeps. -/
def carriedBits (w : CmdWord) : CmdWord :=
  match (opField w).toNat with
  | 0 => 0xE0000000000000000F#72
  | 1 => 0xF0FFFFFFFFFFFFFFFF#72
  | 2 => 0xFFFFFFFFFFFFFFFFFF#72
  | _ => 0xE00000000000000000#72

/-- The bits of a command word that its format uses: the others are ignored or only carried (R82 to R86). -/
def usedBits (w : CmdWord) : CmdWord :=
  match (opField w).toNat with
  | 0 => 0xE0000000000000000F#72
  | 1 => 0xE000000000FFFFFFFF#72
  | 2 => 0xE300000000FFFFFFFF#72
  | _ => 0xE00000000000000000#72

end Sys2Proof
end

