-- ==== Sys2Proof/Machine/Operands.lean ====
section
/-! DEFINITION. Masks, the history shift, the fold and the table indices: everything a command computes from its `PC`
operand and a history before it touches a table (spec 00_scope R9, 41_history_register, R140, R160, R181, R184). Values
are naturals and lose bits only by a mask (R9; log 4). -/

namespace Sys2Proof.Machine

/-- `mask(k) = 2^k - 1` (R9). -/
def mask (k : Nat) : Nat := 2 ^ k - 1

/-- The numeric value of a direction: NotTaken 0, Taken 1 (R11). -/
def dirBit (o : Dir) : Nat := o.toBool.toNat

/-- `shl1(h, o, N) = ((h << 1) | o) & mask(N)` (R121). -/
def shl1 (h : Nat) (o : Dir) (n : Nat) : Nat := ((h <<< 1) ||| dirBit o) &&& mask n

/-- The gshare index, `(pc & mask(G)) ^ (h & mask(G))` (R140). -/
def gidx (g pc h : Nat) : Nat := (pc &&& mask g) ^^^ (h &&& mask g)

/-- The loop of the fold from window `i` on, for at most `fuel` windows (R181). -/
def foldLoop (h len n : Nat) : (fuel i f : Nat) → Nat
  | 0, _, f => f
  | fuel + 1, i, f =>
    if i * n < len then foldLoop h len n fuel (i + 1) (f ^^^ ((h >>> (i * n)) &&& mask n)) else f

/-- `fold(h, H, n)`: the `H` history bits in windows of `n`, XORed together (R181). For a window of `n >= 1` bits fewer
than `H` windows start below bit `H`, so `H` is fuel enough. -/
def fold (h len n : Nat) : Nat := foldLoop h len n len 1 (h &&& mask n)

/-- The widths and indices with which a scheme of the tournament's shape handles one branch (R160, R184): the table
index widths, the path history's stored width, and the indices into the local-history, global and chooser tables. -/
structure Plan where
  localBits   : Nat
  lhtBits     : Nat
  globalBits  : Nat
  chooserBits : Nat
  pathBits    : Nat
  li          : Nat
  gi          : Nat
  ci          : Nat
  deriving DecidableEq, Repr

/-- The Tournament's indices of a branch address `pc` under the path history `phr` (R160). -/
def tournamentPlan (p : Config.Params) (phr pc : Nat) : Plan :=
  { localBits := p.tL.bits, lhtBits := p.tP.bits, globalBits := p.tGp.bits, chooserBits := p.tC.bits, pathBits := p.tH
    li := pc &&& mask p.tP.bits
    gi := phr &&& mask p.tGp.bits
    ci := phr &&& mask p.tC.bits }

/-- The Custom predictor's indices of a branch address `pc` under the path history `phr` (R184). -/
def customPlan (p : Config.Params) (phr pc : Nat) : Plan :=
  { localBits := p.xL.bits, lhtBits := p.xP.bits, globalBits := p.xW.bits, chooserBits := p.xC.bits
    pathBits := p.xH.bits
    li := pc &&& mask p.xP.bits
    gi := fold phr p.xH.bits p.xW.bits ^^^ (pc &&& mask p.xW.bits)
    ci := fold phr p.xH.bits p.xC.bits }

end Sys2Proof.Machine
end

