-- ==== Sys2Proof/Machine/Ops.lean ====
section
/-! DEFINITION. The named operations the meanings are built from: table reads and writes (spec R10, R60), taking a
fault (R236), the acceptance checks (R200), answering (R90), hardware reset (R260), and taking the host's next event. -/

namespace Sys2Proof.Machine

/-- What a step answers. -/
abbrev StepResult := Host.Outcome State Fault Refusal

/-! Tables. A table is read and written by entry index, one whole entry at a time (R60, R65). -/

/-- The entry at an index: the listed one, or the seed (R10 `TblRead`; log 5). -/
def tableRead {α : Type} (seed : α) : Table α → Nat → α
  | [], _ => seed
  | (k, v) :: t, i => if k = i then v else tableRead seed t i

/-- The table without what it lists at an index. -/
def tableErase {α : Type} : Table α → Nat → Table α
  | [], _ => []
  | (k, v) :: t, i => if k = i then tableErase t i else (k, v) :: tableErase t i

/-- The table with an entry listed in its place among rising indices. -/
def tableInsert {α : Type} (i : Nat) (v : α) : Table α → Table α
  | [] => [(i, v)]
  | (k, w) :: t => if i < k then (i, v) :: (k, w) :: t else (k, w) :: tableInsert i v t

/-- Writes one entry and changes no other (R10 `TblWrite`); an entry equal to the seed is not listed (log 5). -/
def tableWrite {α : Type} [DecidableEq α] (seed : α) (t : Table α) (i : Nat) (v : α) : Table α :=
  if v = seed then tableErase t i else tableInsert i v (tableErase t i)

/-- The listed indices rise strictly and begin at `lo` or above. -/
def tableRising {α : Type} (lo : Nat) : Table α → Bool
  | [] => true
  | (k, _) :: t => decide (lo ≤ k) && tableRising (k + 1) t

/-- The canonical form of a table of `size` entries: indices strictly rising and inside the table, no entry equal to the
seed, every entry `ok` (R60, R39; log 5). -/
def Table.wf {α : Type} [DecidableEq α] (seed : α) (size : Nat) (ok : α → Bool) (t : Table α) : Bool :=
  tableRising 0 t && t.all fun e => decide (e.1 < size) && decide (e.2 ≠ seed) && ok e.2

/-- The seed of a counter cell, WN (R205 to R207). -/
def cellSeed : BitVec 2 := cellCode .wn

/-- The canonical form of a counter table with index width `k`: every 2-bit entry is a state (R39). -/
def counterTableWf (k : Nat) (t : CounterTable) : Bool := Table.wf cellSeed (2 ^ k) (fun _ => true) t

/-- The canonical form of a local-history table with index width `k` and entries of `w` bits (R30, R31). -/
def historyTableWf (k w : Nat) (t : HistoryTable) : Bool := Table.wf 0 (2 ^ k) (fun v => decide (v < 2 ^ w)) t

/-- The stored code of a cell of a counter table. -/
def cellAt (t : CounterTable) (i : Nat) : BitVec 2 := tableRead cellSeed t i

/-- The stored entry of a local-history table. -/
def historyAt (t : HistoryTable) (i : Nat) : Nat := tableRead 0 t i

/-- Why a command's pseudocode breaks off: a cell outside the four states (R107), or a table access against the
requirements of R10. -/
inductive Stop where
  | badCell
  | outOfTable
  deriving DecidableEq, Repr

/-- `TblRead` of a counter table of index width `k`, with the check of R107 that the entry is a state. -/
def readCell (k : Nat) (t : CounterTable) (i : Nat) : Except Stop Cell :=
  if i < 2 ^ k then
    match cellOfCode (cellAt t i) with
    | some c => .ok c
    | none => .error .badCell
  else .error .outOfTable

/-- `TblWrite` of a counter table of index width `k`. -/
def writeCell (k : Nat) (t : CounterTable) (i : Nat) (c : Cell) : Except Stop CounterTable :=
  if i < 2 ^ k then .ok (tableWrite cellSeed t i (cellCode c)) else .error .outOfTable

/-- `TblRead` of a local-history table of index width `k`. -/
def readHistory (k : Nat) (t : HistoryTable) (i : Nat) : Except Stop Nat :=
  if i < 2 ^ k then .ok (historyAt t i) else .error .outOfTable

/-- `TblWrite` of a local-history table of index width `k` with entries of `w` bits. -/
def writeHistory (k w : Nat) (t : HistoryTable) (i v : Nat) : Except Stop HistoryTable :=
  if i < 2 ^ k ∧ v < 2 ^ w then .ok (tableWrite 0 t i v) else .error .outOfTable

/-! Answering, faults, acceptance. -/

/-- The command's one response, read off the state after the command (R90): FAULT_CODE and FAULT as they now are, and
the prediction if there is one (R91). -/
def State.respond (s : State) (pred : Option Dir) : State :=
  { s with resp := some { faultCode := s.faultCode, fault := s.faultFlag, pred := pred } }

/-- `raise <Fault>`, the one fault entry (R236): FAULT_CODE and CTL_STATE are written, the scheme state stays as it was
(R237), and the answer is PRED 0, FAULT 1 and the code. -/
def State.raise (s : State) (c : Cause) : State :=
  State.respond { s with ctl := .faulted c s.active } none

/-- A command received in FAULTED: no state changes, and the stored code is answered (R219). -/
def State.ignore (s : State) : State := s.respond none

/-- The acceptance checks of a command that only READY accepts: PREDICT, TRAIN, CLEANUP (R200 checks 1 and 3, R217,
R218). -/
def State.whenReady (s : State) (run : SchemeState → StepResult) : StepResult :=
  match s.ctl with
  | .faulted _ _ => .next s.ignore
  | .uninit => .next (s.raise .protocolViolation)
  | .ready a => run a

/-- The acceptance checks of a command that only UNINIT accepts: INIT (R200 checks 1 and 3, R216). -/
def State.whenUninit (s : State) (run : StepResult) : StepResult :=
  match s.ctl with
  | .faulted _ _ => .next s.ignore
  | .ready _ => .next (s.raise .protocolViolation)
  | .uninit => run

/-- The check of a command no state accepts but FAULTED ignores: a reserved OP (R200 checks 1 and 2). -/
def State.unlessFaulted (s : State) (run : StepResult) : StepResult :=
  match s.ctl with
  | .faulted _ _ => .next s.ignore
  | .uninit | .ready _ => run

/-- The end of a command whose pseudocode came out as `r`: its effect; or INVARIANT_VIOLATION taken with nothing written
(R232, R237); or the stop of a table access the spec rules out. -/
def State.conclude {α : Type} (s : State) (r : Except Stop α) (effect : α → State) : StepResult :=
  match r with
  | .ok a => .next (effect a)
  | .error .badCell => .next (s.raise .invariantViolation)
  | .error .outOfTable => .fault .outOfTable

/-- READY with the given scheme state, answered without a prediction: the end of INIT (R203) and of TRAIN (R163). -/
def State.becomeReady (s : State) (a : SchemeState) : State :=
  State.respond { s with ctl := .ready a } none

/-- UNINIT with no scheme state, answered without a prediction: the end of CLEANUP (R211). -/
def State.release (s : State) : State :=
  State.respond { s with ctl := .uninit } none

/-! Hardware reset and the host's events. -/

/-- The reset event (R260): UNINIT, FAULT_CODE NONE, every other register and table without a value, and no response. -/
def State.hardwareReset (s : State) : State := { s with ctl := .uninit, resp := none }

/-- A step in which the host sends nothing: the block holds its state and answers nothing (R247, R92; log 8). -/
def State.hold (s : State) : State := { s with resp := none }

/-- What the host sends next. -/
inductive Fetched where
  /-- Nothing is presented. -/
  | nothing
  /-- The reset pulse, and the machine with it taken. -/
  | reset (s : State)
  /-- A command word, and the machine with it taken. -/
  | command (w : CmdWord) (s : State)

/-- Takes the host's next event (R70: one at a time, in order). -/
def State.fetch (s : State) : Fetched :=
  match s.inputs with
  | [] => .nothing
  | .reset :: rest => .reset { s with inputs := rest }
  | .command w :: rest => .command w { s with inputs := rest }

end Sys2Proof.Machine
end

