-- ==== Sys2Proof/Machine/Hybrid.lean ====
section
/-! DEFINITION. The local/global/chooser predictor: what Tournament and Custom have in common, since Custom's "semantics
otherwise mirror Tournament exactly" with other indices (spec 43_tournament, 44_custom_folded R180). The indices and
widths come in a `Plan`. -/

namespace Sys2Proof.Machine

/-- The seeds of INIT.TOURNAMENT and of INIT.CUSTOM: every cell WN, every history 0 (R206, R207). -/
def hybridSeed : HybridState := { lht := [], localTbl := [], globalTbl := [], chooserTbl := [], phr := 0 }

/-- The pseudocode of PREDICT (R162, R186): the chooser's direction Taken selects the local side, NotTaken the global
side (R161, R185). -/
def hybridPredict (p : Plan) (h : HybridState) : Except Stop Dir := do
  let cc ← readCell p.chooserBits h.chooserTbl p.ci
  match dir cc with
  | .taken => do
    let entry ← readHistory p.lhtBits h.lht p.li
    let lc ← readCell p.localBits h.localTbl (entry &&& mask p.localBits)
    return dir lc
  | .notTaken => do
    let gc ← readCell p.globalBits h.globalTbl p.gi
    return dir gc

/-- The chooser's step (R164, R170, R188): none where the sub-predictions agree; toward local where local was right,
toward global otherwise. -/
def chooserStep (cc : Cell) (lp gp o : Dir) : Option Cell :=
  if lp = gp then none else if lp = o then some (upd cc .taken) else some (upd cc .notTaken)

/-- The pseudocode of TRAIN (R163, R187): all reads first, then the writes, each index from the state before the
command. -/
def hybridTrain (p : Plan) (o : Dir) (h : HybridState) : Except Stop HybridState := do
  let entry ← readHistory p.lhtBits h.lht p.li
  let lh := entry &&& mask p.localBits
  let lc ← readCell p.localBits h.localTbl lh
  let gc ← readCell p.globalBits h.globalTbl p.gi
  let cc ← readCell p.chooserBits h.chooserTbl p.ci
  let chooserTbl ← match chooserStep cc (dir lc) (dir gc) o with
    | some c => writeCell p.chooserBits h.chooserTbl p.ci c
    | none => .ok h.chooserTbl
  let localTbl ← writeCell p.localBits h.localTbl lh (upd lc o)
  let globalTbl ← writeCell p.globalBits h.globalTbl p.gi (upd gc o)
  let lht ← writeHistory p.lhtBits p.localBits h.lht p.li (shl1 lh o p.localBits)
  return { lht := lht, localTbl := localTbl, globalTbl := globalTbl, chooserTbl := chooserTbl,
           phr := shl1 h.phr o p.pathBits }

end Sys2Proof.Machine
end

