-- ==== Sys2Proof/Machine/Custom.lean ====
section
/-! DEFINITION. The custom predictor (spec 44_custom_folded) on its own state: the shared predictor with the folded
indices of R184. -/

namespace Sys2Proof.Machine

/-- The seeds of INIT.CUSTOM (R207). -/
def customSeed : HybridState := hybridSeed

/-- The pseudocode of PREDICT.CUSTOM (R186). -/
def customPredict (p : Config.Params) (pc : Addr) (h : HybridState) : Except Stop Dir :=
  hybridPredict (customPlan p h.phr pc.toNat) h

/-- The pseudocode of TRAIN.CUSTOM (R187), the chooser written at the index it is read at (R193). -/
def customTrain (p : Config.Params) (pc : Addr) (o : Dir) (h : HybridState) : Except Stop HybridState :=
  hybridTrain (customPlan p h.phr pc.toNat) o h

end Sys2Proof.Machine
end

