-- ==== Sys2Proof/Machine/Gshare.lean ====
section
/-! DEFINITION. The gshare table and mux (spec 42_gshare): INIT's seeds, PREDICT and TRAIN of the Gshare scheme on its own
state. -/

namespace Sys2Proof.Machine

/-- The seeds of INIT.GSHARE: every cell WN, the history 0 (R205). -/
def gshareSeed : GshareState := { bht := [], ghr := 0 }

/-- The pseudocode of PREDICT.GSHARE (R141). -/
def gsharePredict (p : Config.Params) (pc : Addr) (g : GshareState) : Except Stop Dir := do
  let i := gidx p.g.bits pc.toNat g.ghr
  let c ← readCell p.g.bits g.bht i
  return dir c

/-- The pseudocode of TRAIN.GSHARE (R143): the index uses the history before the shift. -/
def gshareTrain (p : Config.Params) (pc : Addr) (o : Dir) (g : GshareState) : Except Stop GshareState := do
  let i := gidx p.g.bits pc.toNat g.ghr
  let c ← readCell p.g.bits g.bht i
  let bht ← writeCell p.g.bits g.bht i (upd c o)
  return { bht := bht, ghr := shl1 g.ghr o p.g.bits }

end Sys2Proof.Machine
end

