-- ==== Sys2Proof/Machine/Tournament.lean ====
section
/-! DEFINITION. The tournament predictor (spec 43_tournament) on its own state: the shared predictor with the indices of
R160. -/

namespace Sys2Proof.Machine

/-- The seeds of INIT.TOURNAMENT (R206). -/
def tournamentSeed : HybridState := hybridSeed

/-- The pseudocode of PREDICT.TOURNAMENT (R162). -/
def tournamentPredict (p : Config.Params) (pc : Addr) (h : HybridState) : Except Stop Dir :=
  hybridPredict (tournamentPlan p h.phr pc.toNat) h

/-- The pseudocode of TRAIN.TOURNAMENT (R163), the chooser written at the index it is read at (R171). -/
def tournamentTrain (p : Config.Params) (pc : Addr) (o : Dir) (h : HybridState) : Except Stop HybridState :=
  hybridTrain (tournamentPlan p h.phr pc.toNat) o h

end Sys2Proof.Machine
end

