-- ==== Sys2Proof/Machine/Facade.lean ====
section
/-! DEFINITION. The facade's dispatch of an accepted PREDICT or TRAIN on the active scheme (spec 45_control_fsm R201,
R202), and the effect of each scheme's rule on the machine. -/

namespace Sys2Proof.Machine

/-- The Static scheme's answer: always Taken (R208). -/
def staticPredict : Except Stop Dir := .ok .taken

/-- PREDICT's effect: the direction is answered and no state changes (R201, R66). -/
def State.predicted (s : State) (r : Except Stop Dir) : StepResult :=
  s.conclude r fun d => s.respond (some d)

/-- TRAIN's effect: the scheme state becomes the trained one, and the answer has no prediction (R202, R91). -/
def State.trained {α : Type} (s : State) (r : Except Stop α) (wrap : α → SchemeState) : StepResult :=
  s.conclude r fun a => s.becomeReady (wrap a)

/-- TRAIN's effect where it is a no-op: only the answer (R209, R210). -/
def State.untrained (s : State) : StepResult := .next (s.respond none)

/-- An accepted PREDICT executes the rule of the active scheme (R201). -/
def State.dispatchPredict (s : State) (pc : Addr) (a : SchemeState) : StepResult :=
  match a with
  | .static => s.predicted staticPredict
  | .gshare g => s.predicted (gsharePredict s.cfg pc g)
  | .tournament h => s.predicted (tournamentPredict s.cfg pc h)
  | .custom h => s.predicted (customPredict s.cfg pc h)

/-- An accepted TRAIN with IS_CONDITIONAL = 1 executes the rule of the active scheme (R202). -/
def State.dispatchTrain (s : State) (pc : Addr) (o : Dir) (a : SchemeState) : StepResult :=
  match a with
  | .static => s.untrained
  | .gshare g => s.trained (gshareTrain s.cfg pc o g) .gshare
  | .tournament h => s.trained (tournamentTrain s.cfg pc o h) .tournament
  | .custom h => s.trained (customTrain s.cfg pc o h) .custom

end Sys2Proof.Machine
end

