-- ==== Sys2Proof/Machine/Control.lean ====
section
/-! DEFINITION. The meanings of CLEANUP and of a word with a reserved OP (spec 45_control_fsm R211, R214). -/

namespace Sys2Proof.Machine

/-- CLEANUP (R211): SCHEME and all scheme state lose their values, and CTL_STATE becomes UNINIT. -/
def execCleanup (s : State) : StepResult :=
  s.whenReady fun _ => .next s.release

/-- A word with a reserved OP (R214). The rest of the word has no further effect. -/
def execReserved (_op : BitVec 3) (s : State) : StepResult :=
  s.unlessFaulted (.next (s.raise .illegalCommand))

end Sys2Proof.Machine
end

