-- ==== Sys2Proof/Machine/Init.lean ====
section
/-! DEFINITION. The meanings of INIT (spec 45_control_fsm R203 to R207, R213). -/

namespace Sys2Proof.Machine

/-- INIT.STATIC (R204): no table and no history is seeded. -/
def execInitStatic (s : State) : StepResult :=
  s.whenUninit (.next (s.becomeReady .static))

/-- INIT.GSHARE (R205). -/
def execInitGshare (s : State) : StepResult :=
  s.whenUninit (.next (s.becomeReady (.gshare gshareSeed)))

/-- INIT.TOURNAMENT (R206). -/
def execInitTournament (s : State) : StepResult :=
  s.whenUninit (.next (s.becomeReady (.tournament tournamentSeed)))

/-- INIT.CUSTOM (R207). -/
def execInitCustom (s : State) : StepResult :=
  s.whenUninit (.next (s.becomeReady (.custom customSeed)))

/-- INIT.UNKNOWN (R213): SCHEME is not written and no table is seeded. The selector has no further effect. -/
def execInitUnknown (_sel : BitVec 4) (s : State) : StepResult :=
  s.whenUninit (.next (s.raise .configError))

end Sys2Proof.Machine
end

