-- ==== Sys2Proof/Machine/Predict.lean ====
section
/-! DEFINITION. The meanings of PREDICT, one for each scheme's row. `TARGET` and `IS_DIRECT` are carried and ignored
(spec 30_encoding R86). The rows have one command word, so in a READY state of another mode the word is another row's:
each meaning then does what the word does in that mode, by R201 (log 10). -/

namespace Sys2Proof.Machine

/-- PREDICT.STATIC (R208). -/
def execPredictStatic (pc _target : Addr) (_isDirect : Bool) (s : State) : StepResult :=
  s.whenReady fun
    | .static => s.predicted staticPredict
    | other => s.dispatchPredict pc other

/-- PREDICT.GSHARE (R141). -/
def execPredictGshare (pc _target : Addr) (_isDirect : Bool) (s : State) : StepResult :=
  s.whenReady fun
    | .gshare g => s.predicted (gsharePredict s.cfg pc g)
    | other => s.dispatchPredict pc other

/-- PREDICT.TOURNAMENT (R162). -/
def execPredictTournament (pc _target : Addr) (_isDirect : Bool) (s : State) : StepResult :=
  s.whenReady fun
    | .tournament h => s.predicted (tournamentPredict s.cfg pc h)
    | other => s.dispatchPredict pc other

/-- PREDICT.CUSTOM (R186). -/
def execPredictCustom (pc _target : Addr) (_isDirect : Bool) (s : State) : StepResult :=
  s.whenReady fun
    | .custom h => s.predicted (customPredict s.cfg pc h)
    | other => s.dispatchPredict pc other

end Sys2Proof.Machine
end

