-- ==== Sys2Proof/Machine/Train.lean ====
section
/-! DEFINITION. The meanings of TRAIN, the no-op for a branch that is not conditional and one for each scheme's row.
`TARGET`, `IS_CALL`, `IS_RETURN` and `IS_DIRECT` are carried and ignored (spec 30_encoding R86). The rows with
IS_CONDITIONAL = 1 have one command word, so in a READY state of another mode each meaning does what the word does in that
mode, by R202 (log 10). -/

namespace Sys2Proof.Machine

/-- TRAIN.NC (R210): no counter and no history changes, whatever the scheme. -/
def execTrainNc (_pc _target : Addr) (_outcome : Dir) (_isCall _isReturn _isDirect : Bool) (s : State) : StepResult :=
  s.whenReady fun _ => s.untrained

/-- TRAIN.STATIC (R209): training is ignored. -/
def execTrainStatic (pc _target : Addr) (outcome : Dir) (_isCall _isReturn _isDirect : Bool) (s : State) : StepResult :=
  s.whenReady fun
    | .static => s.untrained
    | other => s.dispatchTrain pc outcome other

/-- TRAIN.GSHARE (R143). -/
def execTrainGshare (pc _target : Addr) (outcome : Dir) (_isCall _isReturn _isDirect : Bool) (s : State) : StepResult :=
  s.whenReady fun
    | .gshare g => s.trained (gshareTrain s.cfg pc outcome g) .gshare
    | other => s.dispatchTrain pc outcome other

/-- TRAIN.TOURNAMENT (R163). -/
def execTrainTournament (pc _target : Addr) (outcome : Dir) (_isCall _isReturn _isDirect : Bool) (s : State) :
    StepResult :=
  s.whenReady fun
    | .tournament h => s.trained (tournamentTrain s.cfg pc outcome h) .tournament
    | other => s.dispatchTrain pc outcome other

/-- TRAIN.CUSTOM (R187). -/
def execTrainCustom (pc _target : Addr) (outcome : Dir) (_isCall _isReturn _isDirect : Bool) (s : State) : StepResult :=
  s.whenReady fun
    | .custom h => s.trained (customTrain s.cfg pc outcome h) .custom
    | other => s.dispatchTrain pc outcome other

end Sys2Proof.Machine
end

