-- ==== Sys2Proof/Machine/Dispatch.lean ====
section
/-! DEFINITION. One arm per instruction: its meaning, by its full name. -/

namespace Sys2Proof.Machine

def exec (i : Instr) (s : State) : Host.Outcome State Fault Refusal :=
  match i with
  | .initStatic => Sys2Proof.Machine.execInitStatic s
  | .initGshare => Sys2Proof.Machine.execInitGshare s
  | .initTournament => Sys2Proof.Machine.execInitTournament s
  | .initCustom => Sys2Proof.Machine.execInitCustom s
  | .initUnknown sel => Sys2Proof.Machine.execInitUnknown sel s
  | .predictStatic pc target isDirect => Sys2Proof.Machine.execPredictStatic pc target isDirect s
  | .predictGshare pc target isDirect => Sys2Proof.Machine.execPredictGshare pc target isDirect s
  | .predictTournament pc target isDirect => Sys2Proof.Machine.execPredictTournament pc target isDirect s
  | .predictCustom pc target isDirect => Sys2Proof.Machine.execPredictCustom pc target isDirect s
  | .trainNc pc target outcome isCall isReturn isDirect => Sys2Proof.Machine.execTrainNc pc target outcome isCall isReturn isDirect s
  | .trainStatic pc target outcome isCall isReturn isDirect => Sys2Proof.Machine.execTrainStatic pc target outcome isCall isReturn isDirect s
  | .trainGshare pc target outcome isCall isReturn isDirect => Sys2Proof.Machine.execTrainGshare pc target outcome isCall isReturn isDirect s
  | .trainTournament pc target outcome isCall isReturn isDirect => Sys2Proof.Machine.execTrainTournament pc target outcome isCall isReturn isDirect s
  | .trainCustom pc target outcome isCall isReturn isDirect => Sys2Proof.Machine.execTrainCustom pc target outcome isCall isReturn isDirect s
  | .cleanup => Sys2Proof.Machine.execCleanup s
  | .reserved op => Sys2Proof.Machine.execReserved op s

end Sys2Proof.Machine
end

