-- ==== Sys2Proof/Machine/Step.lean ====
section
/-! DEFINITION. One step of the machine: the host's next event, a whole command or a reset (spec 00_scope R12, R13,
45_control_fsm R200, 70_reset_and_hazards R260). -/

namespace Sys2Proof.Machine

/-- One step. A command word is decoded in the mode SCHEME and executed (R87, R200); a reset pulse resets (R260); where
the host sends nothing the block holds its state (R247). -/
def step (s : State) : Host.Outcome State Fault Refusal :=
  match s.fetch with
  | .nothing => .next s.hold
  | .reset s' => .next s'.hardwareReset
  | .command w s' => exec (decode s.scheme w) s'

/-- The machine with a command word presented by the host as the next event: what `step` takes. Bits above `nbits` are
those of the number, and bits above 71 do not exist (R80; log 8). -/
def State.withFetchWord (s : State) (_nbits w : Nat) : State :=
  { s with inputs := .command (BitVec.ofNat 72 w) :: s.inputs }

end Sys2Proof.Machine
end

