-- ==== Sys2Proof/Machine/Assembler.lean ====
section
/-! DEFINITION. The assembler lines of spec 30_encoding R93 and the pseudo-instructions of R94, as host events. The
concrete spelling of a line (mnemonics, numbers, comments) is left to its reader (log 18). -/

namespace Sys2Proof.Machine

/-- The flags of a TRAIN line: `c` conditional, `l` call, `r` return, `d` direct (R93). -/
structure TrainFlags where
  c : Bool
  l : Bool
  r : Bool
  d : Bool
  deriving DecidableEq, Repr

/-- One assembler line (R93, R94). -/
inductive AsmLine where
  /-- `INIT <scheme>` by the scheme's name. -/
  | init (scheme : Scheme)
  /-- `INIT <scheme>` by a number 0 to 15. -/
  | initNumber (sel : BitVec 4)
  /-- `PREDICT <pc>`. -/
  | predict (pc : Addr)
  /-- `PREDICT <pc>, <target>, <d>`. -/
  | predictFull (pc target : Addr) (d : Bool)
  /-- `TRAIN <pc>, <T or N>`. -/
  | train (pc : Addr) (o : Dir)
  /-- `TRAIN <pc>, <T or N>, <flags>, <target>`. -/
  | trainFull (pc : Addr) (o : Dir) (flags : TrainFlags) (target : Addr)
  /-- `CLEANUP`. -/
  | cleanup
  /-- `RESET`, no command word: the host pulses `rst`. -/
  | reset
  /-- `BRANCH <pc>, <T or N>`: PREDICT, then TRAIN. -/
  | branch (pc : Addr) (o : Dir)
  /-- `JUMP <pc>, <target>`: a direct branch that is not conditional. -/
  | jump (pc target : Addr)
  deriving DecidableEq, Repr

/-- The word of an INIT line by scheme name (R93, R22). -/
def asmInit (scheme : Scheme) : CmdWord := packInit ((schemeCode scheme).setWidth 4)

/-- The word of a TRAIN line (R93). -/
def asmTrain (pc : Addr) (o : Dir) (flags : TrainFlags) (target : Addr) : CmdWord :=
  packTrain flags.c pc target o flags.l flags.r flags.d

/-- The flags of a TRAIN line that gives none: conditional only (R93). -/
def conditionalOnly : TrainFlags := { c := true, l := false, r := false, d := false }

/-- What the host sends for a line (R93, R94). -/
def assemble : AsmLine → List HostEvent
  | .init scheme => [.command (asmInit scheme)]
  | .initNumber sel => [.command (packInit sel)]
  | .predict pc => [.command (packPredict pc 0#32 false)]
  | .predictFull pc target d => [.command (packPredict pc target d)]
  | .train pc o => [.command (asmTrain pc o conditionalOnly 0#32)]
  | .trainFull pc o flags target => [.command (asmTrain pc o flags target)]
  | .cleanup => [.command (encode .cleanup)]
  | .reset => [.reset]
  | .branch pc o => [.command (packPredict pc 0#32 false), .command (asmTrain pc o conditionalOnly 0#32)]
  | .jump pc target => [.command (asmTrain pc .taken { c := false, l := false, r := false, d := true } target)]

/-- The events of a program, in order. -/
def assembleAll (lines : List AsmLine) : List HostEvent := lines.flatMap assemble

end Sys2Proof.Machine
end

