-- ==== Sys2Proof/Safety.lean ====
section
/-! DEFINITION. The terms claims use: the well-formed states, the end of a run (spec 70_reset_and_hazards R276), and the
host's ordering duty (R270, R274, R275), a premise for claims about prediction sequences. -/

namespace Sys2Proof.Machine

/-- The Gshare state fits its build: table canonical, history inside its width (R27, R32). -/
def GshareState.wf (p : Config.Params) (g : GshareState) : Bool :=
  counterTableWf p.g.bits g.bht && decide (g.ghr < 2 ^ p.g.bits)

/-- The Tournament state fits its build (R28, R30, R33, R34, R35). -/
def tournamentWf (p : Config.Params) (h : HybridState) : Bool :=
  historyTableWf p.tP.bits p.tL.bits h.lht && counterTableWf p.tL.bits h.localTbl
    && counterTableWf p.tGp.bits h.globalTbl && counterTableWf p.tC.bits h.chooserTbl && decide (h.phr < 2 ^ p.tH)

/-- The Custom state fits its build (R29, R31, R36, R37, R38). -/
def customWf (p : Config.Params) (h : HybridState) : Bool :=
  historyTableWf p.xP.bits p.xL.bits h.lht && counterTableWf p.xL.bits h.localTbl
    && counterTableWf p.xW.bits h.globalTbl && counterTableWf p.xC.bits h.chooserTbl && decide (h.phr < 2 ^ p.xH.bits)

/-- The scheme state fits its build. -/
def SchemeState.wf (p : Config.Params) : SchemeState → Bool
  | .static => true
  | .gshare g => g.wf p
  | .tournament h => tournamentWf p h
  | .custom h => customWf p h

/-- The well-formed states: whatever scheme state exists, in READY or left by a fault, has its tables in canonical form
and inside their sizes, and every history inside its width. -/
def State.wf (s : State) : Bool :=
  match s.active with
  | none => true
  | some a => a.wf s.cfg

/-! Responses (R90, R91). -/

/-- The response of a command that raised nothing, with its prediction if it has one. -/
def answer (pred : Option Dir) : Response := { faultCode := none, fault := false, pred := pred }

/-- The response of a command that ends in FAULTED: FAULT 1, the code, no prediction (R219, R236). -/
def faultAnswer (c : Cause) : Response := { faultCode := some c, fault := true, pred := none }

/-! Runs and how they end (R276). -/

/-- What the host does in each step of a run: it presents a command word, or nothing (log 8). -/
abbrev Script := List (Option CmdWord)

/-- The machine after the steps of a script, nothing else being presented; none if a step stops, which no step does. -/
def afterScript (s : State) : Script → Option State
  | [] => some s
  | move :: rest =>
    match step { s with inputs := (move.map HostEvent.command).toList } with
    | .next t => afterScript t rest
    | .fault _ | .refused _ => none

/-- A run of the block, a finite sequence of commands from a reset, whatever the block was doing before it (R276, R260).
Steps in which the host sends nothing may stand anywhere in it (log 21). -/
def runOf (s : State) (script : Script) : Option State := afterScript s.hardwareReset script

/-- The run has ended well: its last command was an accepted CLEANUP, that is one received in READY (R276, R211). A run
without any command has no last one, so it has not ended well (log 21). -/
def EndedWell (s : State) (script : Script) : Prop :=
  ∃ (before after : Script) (w : CmdWord) (t : State), script = before ++ some w :: after ∧ (∀ move ∈ after, move = none) ∧
    opField w = 3#3 ∧ runOf s before = some t ∧ t.ctlState = .ready

/-- The run has gone wrong: CTL_STATE is FAULTED (R276). -/
def GoneWrong (s : State) (script : Script) : Prop := ∃ t, runOf s script = some t ∧ t.ctlState = .faulted

/-- The run has stopped in READY: it is unfinished, its tables still allocated (R276). -/
def Unfinished (s : State) (script : Script) : Prop := ∃ t, runOf s script = some t ∧ t.ctlState = .ready

/-! The host's ordering duty (R270, R274). -/

/-- The word is a PREDICT. -/
def isPredictWord (w : CmdWord) : Bool := decide (opField w = 1#3)

/-- The word is a TRAIN with IS_CONDITIONAL = 1. -/
def isConditionalTrainWord (w : CmdWord) : Bool := decide (opField w = 2#3) && isConditionalField w

/-- The word changes no table and no history: PREDICT, or TRAIN with IS_CONDITIONAL = 0 (R66, R210). -/
def isQuietWord (w : CmdWord) : Bool := isPredictWord w || (decide (opField w = 2#3) && !isConditionalField w)

/-- The host keeps the ordering duty of R270 over its events, `pending` being the branch that was asked about and not yet
trained: a conditional TRAIN follows a PREDICT of its own branch, and between the two there is no PREDICT and no TRAIN of
another branch. R270 spells this out for conditional branches alone. What it leaves open is the model's choice (DESIGN
CHOICE, log 20): a TRAIN with IS_CONDITIONAL = 0 of the pending branch is that branch's paired TRAIN, so that a branch that
is not conditional may be asked about and then reported; with nothing pending it may stand without a PREDICT; a
PREDICT that a reset, an INIT, a CLEANUP, a reserved word or the end of the events leaves without its TRAIN is no breach;
and a PREDICT that another PREDICT, or a TRAIN of another branch, follows without its TRAIN is one, also where its branch is
not conditional and the host reports it not at all, as R274 allows: a PREDICT word does not tell (R83), and is held to be a
conditional branch's. -/
def keepsOrder (pending : Option Addr) : List HostEvent → Bool
  | [] => true
  | .reset :: rest => keepsOrder none rest
  | .command w :: rest =>
    if isPredictWord w then decide (pending = none) && keepsOrder (some (pcField w)) rest
    else if isConditionalTrainWord w then decide (pending = some (pcField w)) && keepsOrder none rest
    else if isQuietWord w then decide (pending = none ∨ pending = some (pcField w)) && keepsOrder none rest
    else keepsOrder none rest

end Sys2Proof.Machine
end

