-- ==== Sys2Proof/Certificates/Slice0/Obligations.lean ====
section
/-! DEFINITION. The statements for the provers. Each docstring names the rules of spec/ it formalises; what is the
model's own choice is said there with its log entry. -/

open Sys2Proof Sys2Proof.Machine

/-! Encoding (30_encoding). -/

/-- Words written out from R80, R87 and R93's examples decode to what they stand for; the mode is part of the reading. -/
def Obligations.SampleWordsDecode : Prop :=
  decode none 0x000000000000000001#72 = .initGshare ∧
  decode none 0x000000000000000007#72 = .initUnknown 7#4 ∧
  decode (some .gshare) 0x20000000000000000A#72 = .predictGshare 0xA#32 0#32 false ∧
  decode (some .custom) 0x30FFFFFFFF0000000A#72 = .predictCustom 0xA#32 0xFFFFFFFF#32 true ∧
  decode (some .tournament) 0x43000000000000000A#72 = .trainTournament 0xA#32 0#32 .taken false false false ∧
  decode (some .static) 0x42000000000000000A#72 = .trainStatic 0xA#32 0#32 .notTaken false false false ∧
  decode (some .gshare) 0x550000100000000040#72 = .trainNc 0x40#32 0x1000#32 .taken true false true ∧
  decode (some .gshare) 0x600000000000000000#72 = .cleanup ∧
  decode none 0xA00000000000000000#72 = .reserved 5#3

/-- Decode and encode agree (R80, R82 to R85, R87): the word of a well-formed instruction reads back as that instruction,
every operand with it, in any mode that reads its row. -/
def Obligations.DecodeOfEncode : Prop :=
  ∀ (scheme : Option Scheme) (i : Instr), i.wellFormed = true → i.readIn scheme = true → decode scheme (encode i) = i

/-- The other direction (R80, R82 to R86): re-encoding what any word decodes to gives the word back in every bit its
format uses or carries, and 0 in the ignored bits. -/
def Obligations.EncodeOfDecode : Prop :=
  ∀ (scheme : Option Scheme) (w : CmdWord), encode (decode scheme w) = w &&& carriedBits w

/-- Every word decodes to a well-formed instruction of the mode's row (R87, R89). That a word without a mode reads as
its Static row is the model's choice (log 10). -/
def Obligations.DecodedIsWellFormed : Prop :=
  ∀ (scheme : Option Scheme) (w : CmdWord),
    (decode scheme w).wellFormed = true ∧ (decode scheme w).readIn scheme = true

/-- "Every 72-bit word matches exactly one (match, mask) pair of this table" (R88, marked there as derived). -/
def Obligations.ExactlyOneRowMatches : Prop :=
  ∀ w : CmdWord, ∃! r, r ∈ opcodeRows ∧ r.matchesWord w = true

/-- The opcode map by match and mask (R87, R88): a word that matches a row decodes to that row's instruction, PREDICT and
TRAIN by the mode. -/
def Obligations.OpcodeMapByMatchAndMask : Prop :=
  ∀ (w : CmdWord) (m : Scheme),
    (w &&& 0xE0000000000000000F#72 = 0x000000000000000000#72 → decode (some m) w = .initStatic) ∧
    (w &&& 0xE0000000000000000F#72 = 0x000000000000000001#72 → decode (some m) w = .initGshare) ∧
    (w &&& 0xE0000000000000000F#72 = 0x000000000000000002#72 → decode (some m) w = .initTournament) ∧
    (w &&& 0xE0000000000000000F#72 = 0x000000000000000003#72 → decode (some m) w = .initCustom) ∧
    (w &&& 0xE0000000000000000C#72 = 0x000000000000000004#72 ∨ w &&& 0xE00000000000000008#72 = 0x000000000000000008#72 →
      decode (some m) w = .initUnknown (schemeSelField w)) ∧
    (w &&& 0xE00000000000000000#72 = 0x200000000000000000#72 →
      decode (some m) w = match m with
        | .static => .predictStatic (pcField w) (targetField w) (isDirectField w)
        | .gshare => .predictGshare (pcField w) (targetField w) (isDirectField w)
        | .tournament => .predictTournament (pcField w) (targetField w) (isDirectField w)
        | .custom => .predictCustom (pcField w) (targetField w) (isDirectField w)) ∧
    (w &&& 0xE20000000000000000#72 = 0x400000000000000000#72 →
      decode (some m) w =
        .trainNc (pcField w) (targetField w) (outcomeField w) (isCallField w) (isReturnField w) (isDirectField w)) ∧
    (w &&& 0xE20000000000000000#72 = 0x420000000000000000#72 →
      decode (some m) w = match m with
        | .static => .trainStatic (pcField w) (targetField w) (outcomeField w) (isCallField w) (isReturnField w) (isDirectField w)
        | .gshare => .trainGshare (pcField w) (targetField w) (outcomeField w) (isCallField w) (isReturnField w) (isDirectField w)
        | .tournament => .trainTournament (pcField w) (targetField w) (outcomeField w) (isCallField w) (isReturnField w) (isDirectField w)
        | .custom => .trainCustom (pcField w) (targetField w) (outcomeField w) (isCallField w) (isReturnField w) (isDirectField w)) ∧
    (w &&& 0xE00000000000000000#72 = 0x600000000000000000#72 → decode (some m) w = .cleanup) ∧
    (w &&& 0x800000000000000000#72 = 0x800000000000000000#72 → decode (some m) w = .reserved (opField w))

/-- "two command words that differ only in such fields have the same response and the same effect on the state" (R86):
two words that agree in the bits their format uses make the same step of every state. -/
def Obligations.IgnoredFieldsHaveNoEffect : Prop :=
  ∀ (s : State) (w w' : CmdWord) (rest : List HostEvent), w &&& usedBits w = w' &&& usedBits w' →
    step { s with inputs := .command w :: rest } = step { s with inputs := .command w' :: rest }

/-- What an instruction does is what its command word does (R87, R201, R202): the rows that share a word do the same in
every state. The model's choice for a row outside its own mode (log 10). -/
def Obligations.OneWordOneEffect : Prop :=
  ∀ (i j : Instr) (s : State), i.wellFormed = true → j.wellFormed = true → encode i = encode j → exec i s = exec j s

/-! The step (00_scope R12, R13; 45_control_fsm R200). -/

/-- A step runs the decoded instruction on the state less the host's event; the mode of the decoding is SCHEME (R87). -/
def Obligations.StepRunsDecodedInstruction : Prop :=
  ∀ (s : State) (w : CmdWord) (rest : List HostEvent), s.inputs = .command w :: rest →
    step s = exec (decode s.scheme w) { s with inputs := rest }

/-- Hardware reset, whatever the block was doing (R260), and the step in which the host sends nothing (R247; that it is a
step of its own, without a response, is the model's choice, log 8 and log 9). -/
def Obligations.ResetAndIdleSteps : Prop :=
  (∀ (s : State) (rest : List HostEvent), s.inputs = .reset :: rest →
    ∃ t, step s = .next t ∧ t.ctlState = .uninit ∧ t.faultCode = none ∧ t.scheme = none ∧ t.active = none ∧
      t.resp = none ∧ t.cfg = s.cfg ∧ t.inputs = rest) ∧
  (∀ s : State, s.inputs = [] → ∃ t, step s = .next t ∧ t.ctl = s.ctl ∧ t.cfg = s.cfg ∧ t.inputs = [] ∧ t.resp = none)

/-- The machine's state after reset is that of the build at hand, and for every build it is (R41, R260): UNINIT, NONE, no
scheme, no table, no history. -/
def Obligations.ResetStateHoldsNoValue : Prop :=
  core.reset = State.reset ∧ State.reset = State.resetOf Config.build ∧ State.reset.ctlState = .uninit ∧
  State.reset.cfg = Config.build ∧ ∀ p : Config.Params,
    (State.resetOf p).ctlState = .uninit ∧ ctlCode (State.resetOf p).ctlState = 0#2 ∧
    causeCode (State.resetOf p).faultCode = 0#3 ∧ (State.resetOf p).scheme = none ∧ (State.resetOf p).active = none ∧
    (State.resetOf p).cfg = p

/-! The control FSM (45_control_fsm) and the faults (60_exceptions). -/

/-- R219: in FAULTED every command changes no state and is answered with FAULT 1 and the stored code; and only hardware
reset leaves FAULTED. -/
def Obligations.FaultedIgnoresCommands : Prop :=
  (∀ (i : Instr) (s : State) (c : Cause) (left : Option SchemeState), s.ctl = .faulted c left →
    exec i s = .next { s with resp := some (faultAnswer c) }) ∧
  (∀ s t : State, s.ctlState = .faulted → step s = .next t → t.ctlState ≠ .faulted → ∃ rest, s.inputs = .reset :: rest)

/-- R216, R217, R218: INIT in READY, and PREDICT, TRAIN (conditional or not) and CLEANUP in UNINIT, take
PROTOCOL_VIOLATION, and leave the scheme state as it was (R236, R237). -/
def Obligations.WrongStateTakesProtocolViolation : Prop :=
  (∀ (i : Instr) (s : State) (a : SchemeState), i.wellFormed = true → opField (encode i) = 0#3 → s.ctl = .ready a →
    exec i s = .next { s with ctl := .faulted .protocolViolation (some a), resp := some (faultAnswer .protocolViolation) }) ∧
  (∀ (i : Instr) (s : State), i.wellFormed = true →
    opField (encode i) = 1#3 ∨ opField (encode i) = 2#3 ∨ opField (encode i) = 3#3 → s.ctl = .uninit →
    exec i s = .next { s with ctl := .faulted .protocolViolation none, resp := some (faultAnswer .protocolViolation) })

/-- R214: a word with a reserved OP, received in UNINIT or READY, takes ILLEGAL_COMMAND. -/
def Obligations.ReservedOpTakesIllegalCommand : Prop :=
  ∀ (s : State) (op : BitVec 3), s.ctlState ≠ .faulted →
    exec (.reserved op) s =
      .next { s with ctl := .faulted .illegalCommand s.active, resp := some (faultAnswer .illegalCommand) }

/-- R213: INIT with a selector of 4 to 15 in UNINIT takes CONFIG_ERROR; SCHEME is not written and no table is seeded. -/
def Obligations.UnknownSchemeTakesConfigError : Prop :=
  ∀ (s : State) (sel : BitVec 4), s.ctl = .uninit →
    exec (.initUnknown sel) s =
      .next { s with ctl := .faulted .configError none, resp := some (faultAnswer .configError) }

/-- The order of the checks (R200, R235): FAULTED keeps its code; then a reserved OP; then a pair the table does not
accept; then an unknown selector; and no other command of any state ends with a fault. -/
def Obligations.FaultPriorityOrder : Prop :=
  ∀ (s : State) (w : CmdWord) (rest : List HostEvent),
    ∃ t, step { s with inputs := .command w :: rest } = .next t ∧
      t.faultCode =
        if s.ctlState = .faulted then s.faultCode
        else if 4 ≤ (opField w).toNat then some .illegalCommand
        else if (opField w = 0#3 ∧ s.ctlState = .ready) ∨ (opField w ≠ 0#3 ∧ s.ctlState = .uninit) then
          some .protocolViolation
        else if opField w = 0#3 ∧ 3 < (schemeSelField w).toNat then some .configError
        else none

/-- Fault entry is the same for every instruction and every cause, and precise (R236, R237): it writes FAULT_CODE and
CTL_STATE, leaves the scheme state as it was, and answers FAULT 1, the code and no prediction. -/
def Obligations.FaultEntryIsPrecise : Prop :=
  ∀ (i : Instr) (s t : State), exec i s = .next t → s.ctlState ≠ .faulted → t.ctlState = .faulted →
    ∃ c, t = { s with ctl := .faulted c s.active, resp := some (faultAnswer c) }

/-- INVARIANT_VIOLATION is unreachable with 2-bit cells (R107, R232, marked there as derived): no step of any state
brings it about. -/
def Obligations.InvariantViolationUnreachable : Prop :=
  ∀ s t : State, step s = .next t → t.faultCode = some .invariantViolation → s.faultCode = some .invariantViolation

/-- Every step of every state comes to a next state: no table access is outside its table (R61) and no instruction is
refused. The build does not change (R6); the host's event is consumed; and there is one response to each command and none
to anything else (R90, R92). -/
def Obligations.EveryStepAnswers : Prop :=
  ∀ s : State, ∃ t, step s = .next t ∧ t.cfg = s.cfg ∧ t.inputs = s.inputs.tail ∧
    (t.resp ≠ none ↔ ∃ w rest, s.inputs = .command w :: rest)

/-- The FSM's transitions (R215), for every state and every event of the host. -/
def Obligations.ControlFsmTransitions : Prop :=
  ∀ s t : State, step s = .next t →
    match s.inputs with
    | [] => t.ctlState = s.ctlState
    | .reset :: _ => t.ctlState = .uninit
    | .command w :: _ =>
      match s.ctlState with
      | .faulted => t.ctlState = .faulted
      | .uninit => t.ctlState = if opField w = 0#3 ∧ (schemeSelField w).toNat ≤ 3 then .ready else .faulted
      | .ready =>
        t.ctlState = if opField w = 1#3 ∨ opField w = 2#3 then .ready else if opField w = 3#3 then .uninit else .faulted

/-- The response (R90) and the FAULT flag (R24): FAULT and FAULT_CODE are those of the state after the command, FAULT is 1
exactly if the code is not NONE; the word has the code's number (R23, R230) in bits 4:2, FAULT in bit 1, and in bit 0 a 1
exactly if the prediction is Taken. -/
def Obligations.ResponseShowsFaultState : Prop :=
  ∀ (i : Instr) (s t : State), exec i s = .next t →
    ∃ r, t.resp = some r ∧ r.fault = decide (t.ctlState = .faulted) ∧ r.faultCode = t.faultCode ∧
      (r.fault = true ↔ r.faultCode ≠ none) ∧
      (respWord r).extractLsb' 2 3 = (match t.faultCode with
        | none => 0#3
        | some .configError => 1#3
        | some .invariantViolation => 2#3
        | some .protocolViolation => 3#3
        | some .illegalCommand => 4#3) ∧
      (respWord r).getLsbD 1 = decide (t.ctlState = .faulted) ∧
      (respWord r).getLsbD 0 = decide (r.pred = some .taken)

/-- The numbers of the codes, as the spec's rules list them: CTL_STATE (R21), SCHEME (R22), FAULT_CODE (R23, R230), the
cell states (R100), the directions as OUTCOME and PRED (R11, R90). The spec supplies those of SCHEME, of the cells and of
the directions itself (log 15). -/
def Obligations.CodesAreTheSpecsNumbers : Prop :=
  ctlCode .uninit = 0#2 ∧ ctlCode .ready = 1#2 ∧ ctlCode .faulted = 2#2 ∧
  schemeCode .static = 0#2 ∧ schemeCode .gshare = 1#2 ∧ schemeCode .tournament = 2#2 ∧ schemeCode .custom = 3#2 ∧
  causeCode none = 0#3 ∧ causeCode (some .configError) = 1#3 ∧ causeCode (some .invariantViolation) = 2#3 ∧
  causeCode (some .protocolViolation) = 3#3 ∧ causeCode (some .illegalCommand) = 4#3 ∧
  cellCode .sn = 0b00#2 ∧ cellCode .wn = 0b01#2 ∧ cellCode .wt = 0b10#2 ∧ cellCode .st = 0b11#2 ∧
  dirBit .notTaken = 0 ∧ dirBit .taken = 1 ∧ Dir.ofBool false = .notTaken ∧ Dir.ofBool true = .taken ∧
  predBit (some .taken) = true ∧ predBit (some .notTaken) = false ∧ predBit none = false

/-- R91: PRED is 0 in the response to INIT, TRAIN and CLEANUP and to any command that faults or is issued in FAULTED; the
model's response has no prediction there. -/
def Obligations.NoPredictionOutsidePredict : Prop :=
  ∀ (i : Instr) (s t : State) (r : Response), i.wellFormed = true → exec i s = .next t → t.resp = some r →
    (opField (encode i) ≠ 1#3 ∨ t.ctlState = .faulted) → r.pred = none ∧ (respWord r).getLsbD 0 = false

/-- No sequence of commands leaves FAULTED or changes the code or the scheme state left behind (R219, R238). -/
def Obligations.FaultedUntilReset : Prop :=
  ∀ (ws : List CmdWord) (s : State) (c : Cause) (left : Option SchemeState) (rest : List HostEvent),
    s.ctl = .faulted c left → s.inputs = ws.map .command ++ rest →
    ∃ t : State, core.run ws.length s = .next t ∧ t.ctl = s.ctl ∧ t.cfg = s.cfg ∧ t.inputs = rest

/-! Invariants. -/

/-- Every step keeps a state well formed: tables canonical and inside their sizes (R60, R61), histories and local-history
entries inside their widths (R27 to R31), in READY and in what a fault left. -/
def Obligations.WellFormedStateIsKept : Prop :=
  ∀ s t : State, s.wf = true → step s = .next t → t.wf = true

/-- The state after reset is well formed, for every build. -/
def Obligations.ResetStateIsWellFormed : Prop :=
  State.reset.wf = true ∧ ∀ p : Config.Params, (State.resetOf p).wf = true

/-- What writes the scheme state and SCHEME while the block stays READY (R22, R27 to R38, R108): TRAIN with
IS_CONDITIONAL = 1 alone writes the registers and tables, and nothing changes the scheme. -/
def Obligations.OnlyConditionalTrainWritesSchemeState : Prop :=
  ∀ (s t : State) (a a' : SchemeState), step s = .next t → s.ctl = .ready a → t.ctl = .ready a' →
    schemeOf a' = schemeOf a ∧
    (a' ≠ a → ∃ w rest, s.inputs = .command w :: rest ∧ isConditionalTrainWord w = true)

/-- R212: "nothing that TRAIN wrote before a CLEANUP or a hardware reset can influence any response after it". Two
machines that differ in their block's state alone run alike from a reset on, and from a CLEANUP accepted by both on. -/
def Obligations.NothingPersists : Prop :=
  ∀ s s' : State, s.cfg = s'.cfg → s.inputs = s'.inputs →
    ((∃ rest, s.inputs = .reset :: rest) ∨
      (s.ctlState = .ready ∧ s'.ctlState = .ready ∧ ∃ w rest, opField w = 3#3 ∧ s.inputs = .command w :: rest)) →
    ∀ n : Nat, core.run (n + 1) s = core.run (n + 1) s'

/-! INIT and CLEANUP (45_control_fsm R203 to R207, R211, 70_reset_and_hazards R263, R276). -/

/-- R204: INIT.STATIC in UNINIT. -/
def Obligations.InitStaticSeedsNothing : Prop :=
  ∀ s : State, s.ctl = .uninit → exec .initStatic s = .next { s with ctl := .ready .static, resp := some (answer none) }

/-- R205: INIT.GSHARE in UNINIT: every cell of G_BHT is WN, whose pattern is 0b01, and G_GHR is 0. -/
def Obligations.InitGshareSeedsTables : Prop :=
  ∀ s : State, s.ctl = .uninit →
    ∃ g : GshareState, exec .initGshare s = .next { s with ctl := .ready (.gshare g), resp := some (answer none) } ∧
      g.ghr = 0 ∧ ∀ i < 2 ^ s.cfg.g.bits, cellAt g.bht i = 0b01#2

/-- R206: INIT.TOURNAMENT in UNINIT: every cell of T_LOCAL, T_GLOBAL and T_CHOOSER is WN, every entry of T_LHT and T_PHR
are 0. -/
def Obligations.InitTournamentSeedsTables : Prop :=
  ∀ s : State, s.ctl = .uninit →
    ∃ h : HybridState,
      exec .initTournament s = .next { s with ctl := .ready (.tournament h), resp := some (answer none) } ∧
      (∀ i < 2 ^ s.cfg.tL.bits, cellAt h.localTbl i = cellCode .wn) ∧
      (∀ i < 2 ^ s.cfg.tGp.bits, cellAt h.globalTbl i = cellCode .wn) ∧
      (∀ i < 2 ^ s.cfg.tC.bits, cellAt h.chooserTbl i = cellCode .wn) ∧
      (∀ i < 2 ^ s.cfg.tP.bits, historyAt h.lht i = 0) ∧ h.phr = 0

/-- R207: INIT.CUSTOM in UNINIT: the same seeds in the X_ tables. -/
def Obligations.InitCustomSeedsTables : Prop :=
  ∀ s : State, s.ctl = .uninit →
    ∃ h : HybridState,
      exec .initCustom s = .next { s with ctl := .ready (.custom h), resp := some (answer none) } ∧
      (∀ i < 2 ^ s.cfg.xL.bits, cellAt h.localTbl i = cellCode .wn) ∧
      (∀ i < 2 ^ s.cfg.xW.bits, cellAt h.globalTbl i = cellCode .wn) ∧
      (∀ i < 2 ^ s.cfg.xC.bits, cellAt h.chooserTbl i = cellCode .wn) ∧
      (∀ i < 2 ^ s.cfg.xP.bits, historyAt h.lht i = 0) ∧ h.phr = 0

/-- R211: CLEANUP in READY takes SCHEME and all scheme state away and goes to UNINIT. R276: a run that such a CLEANUP ends
has ended well; that steps in which the host sends nothing are part of a run is the model's reading (log 21). -/
def Obligations.CleanupReleasesEverything : Prop :=
  (∀ (s : State) (a : SchemeState), s.ctl = .ready a →
    exec .cleanup s = .next { s with ctl := .uninit, resp := some (answer none) }) ∧
  (∀ (s t : State) (script : Script) (w : CmdWord), runOf s script = some t → t.ctlState = .ready → opField w = 3#3 →
    EndedWell s (script ++ [some w]) ∧
    ∃ t', runOf s (script ++ [some w]) = some t' ∧ t'.ctl = .uninit ∧ t'.resp = some (answer none))

/-- R276: how a run ends. Every run comes to a state; it has ended well, by its last command, exactly if it has a command
and stands in UNINIT with FAULT_CODE NONE; it has gone wrong exactly in FAULTED; it is unfinished exactly in READY; one of
these holds of every run with a command; and a further step in which the host sends nothing does not change which. That
such steps are part of a run, and that a run without a command has none of the three ends, are the model's reading
(log 21). -/
def Obligations.RunsEndWellWrongOrUnfinished : Prop :=
  ∀ (s : State) (script : Script), ∃ t, runOf s script = some t ∧
    (EndedWell s script ↔ (∃ w, some w ∈ script) ∧ t.ctlState = .uninit ∧ t.faultCode = none) ∧
    (GoneWrong s script ↔ t.ctlState = .faulted) ∧ (Unfinished s script ↔ t.ctlState = .ready) ∧
    ((∃ w, some w ∈ script) → EndedWell s script ∨ GoneWrong s script ∨ Unfinished s script) ∧
    (EndedWell s (script ++ [none]) ↔ EndedWell s script) ∧ (GoneWrong s (script ++ [none]) ↔ GoneWrong s script) ∧
    (Unfinished s (script ++ [none]) ↔ Unfinished s script)

/-- Boot (R203, R260, R263): from any state a reset and then INIT with a selector of 0 to 3 reach READY with that scheme,
without a fault. -/
def Obligations.BootReachesReady : Prop :=
  ∀ (s : State) (w : CmdWord) (rest : List HostEvent), s.inputs = .reset :: .command w :: rest → opField w = 0#3 →
    (schemeSelField w).toNat ≤ 3 →
    ∃ (t : State) (a : SchemeState), core.run 2 s = .next t ∧ t.ctl = .ready a ∧
      schemeCode (schemeOf a) = (schemeSelField w).setWidth 2 ∧ t.resp = some (answer none) ∧ t.cfg = s.cfg ∧
      t.inputs = rest

/-! PREDICT (R141, R162, R186, R208). -/

/-- R208: PREDICT under Static answers Taken and changes nothing. -/
def Obligations.PredictStaticAnswersTaken : Prop :=
  ∀ (s : State) (pc target : Addr) (d : Bool), s.ctl = .ready .static →
    exec (.predictStatic pc target d) s = .next { s with resp := some (answer (some .taken)) }

/-- R141 with R140: PREDICT under Gshare answers the direction of the cell at `(pc & mask(G)) ^ (G_GHR & mask(G))` and
changes nothing. -/
def Obligations.PredictGshareAnswersCellDirection : Prop :=
  ∀ (s : State) (g : GshareState) (pc target : Addr) (d : Bool), s.ctl = .ready (.gshare g) →
    ∃ c : Cell,
      cellOfCode (cellAt g.bht ((pc.toNat &&& mask s.cfg.g.bits) ^^^ (g.ghr &&& mask s.cfg.g.bits))) = some c ∧
      exec (.predictGshare pc target d) s = .next { s with resp := some (answer (some (dir c))) }

/-- R162 with R160, R161: PREDICT under Tournament answers the local sub-prediction if the chooser cell's direction is
Taken, the global one otherwise, and changes nothing. -/
def Obligations.PredictTournamentAnswersSelectedSide : Prop :=
  ∀ (s : State) (h : HybridState) (pc target : Addr) (d : Bool), s.ctl = .ready (.tournament h) →
    ∃ lc gc cc : Cell,
      cellOfCode (cellAt h.localTbl (historyAt h.lht (pc.toNat &&& mask s.cfg.tP.bits) &&& mask s.cfg.tL.bits)) = some lc ∧
      cellOfCode (cellAt h.globalTbl (h.phr &&& mask s.cfg.tGp.bits)) = some gc ∧
      cellOfCode (cellAt h.chooserTbl (h.phr &&& mask s.cfg.tC.bits)) = some cc ∧
      exec (.predictTournament pc target d) s =
        .next { s with resp := some (answer (some (if dir cc = .taken then dir lc else dir gc))) }

/-- R186 with R184, R185: PREDICT under Custom, with the folded indices. -/
def Obligations.PredictCustomAnswersSelectedSide : Prop :=
  ∀ (s : State) (h : HybridState) (pc target : Addr) (d : Bool), s.ctl = .ready (.custom h) →
    ∃ lc gc cc : Cell,
      cellOfCode (cellAt h.localTbl (historyAt h.lht (pc.toNat &&& mask s.cfg.xP.bits) &&& mask s.cfg.xL.bits)) = some lc ∧
      cellOfCode (cellAt h.globalTbl
        (fold h.phr s.cfg.xH.bits s.cfg.xW.bits ^^^ (pc.toNat &&& mask s.cfg.xW.bits))) = some gc ∧
      cellOfCode (cellAt h.chooserTbl (fold h.phr s.cfg.xH.bits s.cfg.xC.bits)) = some cc ∧
      exec (.predictCustom pc target d) s =
        .next { s with resp := some (answer (some (if dir cc = .taken then dir lc else dir gc))) }

/-- R66: PREDICT is a pure read in every mode; issued twice in a row it returns the same bit twice. -/
def Obligations.PredictIsPureRead : Prop :=
  ∀ (i : Instr) (s t : State), i.wellFormed = true → opField (encode i) = 1#3 → s.ctlState = .ready →
    exec i s = .next t →
    t.ctl = s.ctl ∧ t.cfg = s.cfg ∧ t.inputs = s.inputs ∧ (∃ d, t.resp = some (answer (some d))) ∧ exec i t = .next t

/-! TRAIN (R143, R163, R187, R209, R210). -/

/-- R209: TRAIN under Static changes nothing. -/
def Obligations.TrainStaticChangesNothing : Prop :=
  ∀ (s : State) (pc target : Addr) (o : Dir) (c r d : Bool), s.ctl = .ready .static →
    exec (.trainStatic pc target o c r d) s = .next { s with resp := some (answer none) }

/-- R210: TRAIN with IS_CONDITIONAL = 0 changes nothing, whatever the scheme and the operands; in UNINIT it takes
PROTOCOL_VIOLATION. -/
def Obligations.TrainNcChangesNothing : Prop :=
  ∀ (s : State) (pc target : Addr) (o : Dir) (c r d : Bool),
    (s.ctlState = .ready → exec (.trainNc pc target o c r d) s = .next { s with resp := some (answer none) }) ∧
    (s.ctlState = .uninit → exec (.trainNc pc target o c r d) s =
      .next { s with ctl := .faulted .protocolViolation none, resp := some (faultAnswer .protocolViolation) })

/-- R143 with R140: TRAIN under Gshare steps the cell at the index of the old history, shifts the outcome into G_GHR, and
changes no other cell and nothing else. -/
def Obligations.TrainGshareStepsCellAndHistory : Prop :=
  ∀ (s : State) (g : GshareState) (pc target : Addr) (o : Dir) (c r d : Bool), s.ctl = .ready (.gshare g) →
    ∃ (cell : Cell) (g' : GshareState),
      cellOfCode (cellAt g.bht (gidx s.cfg.g.bits pc.toNat g.ghr)) = some cell ∧
      exec (.trainGshare pc target o c r d) s =
        .next { s with ctl := .ready (.gshare g'), resp := some (answer none) } ∧
      (∀ j, cellAt g'.bht j =
        if j = gidx s.cfg.g.bits pc.toNat g.ghr then cellCode (upd cell o) else cellAt g.bht j) ∧
      g'.ghr = shl1 g.ghr o s.cfg.g.bits

/-- R163 to R168 with R160: TRAIN under Tournament, every index from the state before it. The local and the global cell
step toward the outcome, the branch's local history and T_PHR shift it in; the chooser cell is unchanged where the
sub-predictions agree and steps toward the side that was right where they do not; no other entry of any table and
nothing else changes. -/
def Obligations.TrainTournamentUpdates : Prop :=
  ∀ (s : State) (h : HybridState) (pc target : Addr) (o : Dir) (c r d : Bool) (li lh gi ci : Nat),
    s.ctl = .ready (.tournament h) → li = pc.toNat &&& mask s.cfg.tP.bits →
    lh = historyAt h.lht li &&& mask s.cfg.tL.bits → gi = h.phr &&& mask s.cfg.tGp.bits →
    ci = h.phr &&& mask s.cfg.tC.bits →
    ∃ (lc gc cc : Cell) (h' : HybridState),
      cellOfCode (cellAt h.localTbl lh) = some lc ∧ cellOfCode (cellAt h.globalTbl gi) = some gc ∧
      cellOfCode (cellAt h.chooserTbl ci) = some cc ∧
      exec (.trainTournament pc target o c r d) s =
        .next { s with ctl := .ready (.tournament h'), resp := some (answer none) } ∧
      (∀ j, cellAt h'.localTbl j = if j = lh then cellCode (upd lc o) else cellAt h.localTbl j) ∧
      (∀ j, cellAt h'.globalTbl j = if j = gi then cellCode (upd gc o) else cellAt h.globalTbl j) ∧
      (∀ j, historyAt h'.lht j = if j = li then shl1 lh o s.cfg.tL.bits else historyAt h.lht j) ∧
      h'.phr = shl1 h.phr o s.cfg.tH ∧
      (dir lc = dir gc → h'.chooserTbl = h.chooserTbl) ∧
      (dir lc ≠ dir gc → ∀ j, cellAt h'.chooserTbl j =
        if j = ci then cellCode (upd cc (if dir lc = o then .taken else .notTaken)) else cellAt h.chooserTbl j)

/-- R187 to R192 with R184: TRAIN under Custom, the same with the folded indices. -/
def Obligations.TrainCustomUpdates : Prop :=
  ∀ (s : State) (h : HybridState) (pc target : Addr) (o : Dir) (c r d : Bool) (li lh gi ci : Nat),
    s.ctl = .ready (.custom h) → li = pc.toNat &&& mask s.cfg.xP.bits →
    lh = historyAt h.lht li &&& mask s.cfg.xL.bits →
    gi = fold h.phr s.cfg.xH.bits s.cfg.xW.bits ^^^ (pc.toNat &&& mask s.cfg.xW.bits) →
    ci = fold h.phr s.cfg.xH.bits s.cfg.xC.bits →
    ∃ (lc gc cc : Cell) (h' : HybridState),
      cellOfCode (cellAt h.localTbl lh) = some lc ∧ cellOfCode (cellAt h.globalTbl gi) = some gc ∧
      cellOfCode (cellAt h.chooserTbl ci) = some cc ∧
      exec (.trainCustom pc target o c r d) s =
        .next { s with ctl := .ready (.custom h'), resp := some (answer none) } ∧
      (∀ j, cellAt h'.localTbl j = if j = lh then cellCode (upd lc o) else cellAt h.localTbl j) ∧
      (∀ j, cellAt h'.globalTbl j = if j = gi then cellCode (upd gc o) else cellAt h.globalTbl j) ∧
      (∀ j, historyAt h'.lht j = if j = li then shl1 lh o s.cfg.xL.bits else historyAt h.lht j) ∧
      h'.phr = shl1 h.phr o s.cfg.xH.bits ∧
      (dir lc = dir gc → h'.chooserTbl = h.chooserTbl) ∧
      (dir lc ≠ dir gc → ∀ j, cellAt h'.chooserTbl j =
        if j = ci then cellCode (upd cc (if dir lc = o then .taken else .notTaken)) else cellAt h.chooserTbl j)

/-! Pairing of PREDICT and TRAIN (R144, R220, R271). -/

/-- Between a PREDICT and its TRAIN, PREDICTs and reports of branches that are not conditional leave the block as it was
(R66, R210, R220): any number of them, in READY, in any scheme. -/
def Obligations.QuietCommandsKeepTheBlock : Prop :=
  ∀ (ws : List CmdWord) (s : State) (rest : List HostEvent), s.ctlState = .ready →
    (∀ w ∈ ws, isQuietWord w = true) → s.inputs = ws.map .command ++ rest →
    ∃ t : State, core.run ws.length s = .next t ∧ t.ctl = s.ctl ∧ t.cfg = s.cfg ∧ t.inputs = rest

/-- R144 under Gshare: after a PREDICT of `pc` and any number of PREDICTs and of TRAINs with IS_CONDITIONAL = 0, the
conditional TRAIN of the same `pc` steps exactly the cell the PREDICT read. -/
def Obligations.TrainStepsTheCellPredictRead : Prop :=
  ∀ (s : State) (g : GshareState) (wp wt : CmdWord) (ws : List CmdWord) (rest : List HostEvent),
    s.ctl = .ready (.gshare g) → opField wp = 1#3 → isConditionalTrainWord wt = true → pcField wt = pcField wp →
    (∀ w ∈ ws, isQuietWord w = true) → s.inputs = (wp :: ws ++ [wt]).map .command ++ rest →
    ∃ (cell : Cell) (t1 t : State) (g' : GshareState),
      cellOfCode (cellAt g.bht (gidx s.cfg.g.bits (pcField wp).toNat g.ghr)) = some cell ∧
      core.run 1 s = .next t1 ∧ t1.resp = some (answer (some (dir cell))) ∧
      core.run (ws.length + 2) s = .next t ∧ t.ctl = .ready (.gshare g') ∧ t.inputs = rest ∧
      ∀ j, cellAt g'.bht j = if j = gidx s.cfg.g.bits (pcField wp).toNat g.ghr then cellCode (upd cell (outcomeField wt))
        else cellAt g.bht j

/-- R270: a host that keeps the ordering duty issues each conditional TRAIN directly after a PREDICT of the same branch.
The duty is the model's reading of R270 (log 20). -/
def Obligations.OrderingDutyPairsTrainWithPredict : Prop :=
  ∀ (before rest : List HostEvent) (w : CmdWord), keepsOrder none (before ++ .command w :: rest) = true →
    isConditionalTrainWord w = true →
    ∃ (earlier : List HostEvent) (wp : CmdWord), before = earlier ++ [.command wp] ∧ isPredictWord wp = true ∧
      pcField wp = pcField w

/-! The counter cell (40_saturating_counter). -/

/-- R105: saturation at both ends, and no wrap from one end to the other. -/
def Obligations.CounterSaturates : Prop :=
  upd .st .taken = .st ∧ upd .sn .notTaken = .sn ∧ upd (upd .st .taken) .taken = .st ∧
  upd (upd .sn .notTaken) .notTaken = .sn ∧ ∀ o, upd .st o ≠ .sn ∧ upd .sn o ≠ .st

/-- R102 and R104 on the codes of R100: `dir` is the high bit; `upd` is the clamped increment and decrement. -/
def Obligations.CounterArithmeticOnCodes : Prop :=
  ∀ c : Cell, dir c = Dir.ofBool ((cellCode c).getLsbD 1) ∧
    (cellCode (upd c .taken)).toNat = min ((cellCode c).toNat + 1) 3 ∧
    (cellCode (upd c .notTaken)).toNat = max (cellCode c).toNat 1 - 1 ∧ cellOfCode (cellCode c) = some c

/-- R106: one step at most per update; a strong state keeps its direction after one update against it and changes it
after two; a weak state changes it after one. -/
def Obligations.CounterSingleStepAndHysteresis : Prop :=
  (∀ c o, (cellCode (upd c o)).toNat ≤ (cellCode c).toNat + 1 ∧ (cellCode c).toNat ≤ (cellCode (upd c o)).toNat + 1) ∧
  dir (upd .st .notTaken) = .taken ∧ dir (upd (upd .st .notTaken) .notTaken) = .notTaken ∧
  dir (upd .sn .taken) = .notTaken ∧ dir (upd (upd .sn .taken) .taken) = .taken ∧
  dir (upd .wn .taken) = .taken ∧ dir (upd .wt .notTaken) = .notTaken

/-! Histories (41_history_register). -/

/-- R120: after any trainings since INIT, bit `i` of an `N`-bit history is the outcome `i` trainings before the most
recent one, and 0 if there were fewer than `i + 1`; the newest outcome is in bit 0. -/
def Obligations.HistoryBitsAreOutcomes : Prop :=
  ∀ (n : Nat) (outcomes : List Dir) (i : Nat), i < n →
    (outcomes.foldl (fun h o => shl1 h o n) 0).testBit i = decide (outcomes.reverse[i]? = some .taken)

/-- R123: the software's history, shifted without a mask and masked at use, and the hardware's register of exactly `N`
bits are the same for every read of `k <= N` bits, from any common start and for any trainings. -/
def Obligations.StoredWidthIsIndistinguishable : Prop :=
  ∀ (n k h : Nat) (outcomes : List Dir), k ≤ n →
    outcomes.foldl (fun x o => (x <<< 1) ||| dirBit o) h &&& mask k =
      outcomes.foldl (fun x o => shl1 x o n) (h &&& mask n) &&& mask k

/-- R128: `N` or more shifts of Taken make the register `mask(N)`, of NotTaken 0, from any value. -/
def Obligations.LongRunsFillTheHistory : Prop :=
  ∀ (n k h : Nat), 1 ≤ n → n ≤ k →
    (List.replicate k Dir.taken).foldl (fun x o => shl1 x o n) h = mask n ∧
    (List.replicate k Dir.notTaken).foldl (fun x o => shl1 x o n) h = 0

/-! The fold (44_custom_folded). -/

/-- R181 bit by bit, and R182: bit `j` of the fold is the XOR of the history bits at `j`, `j + n`, `j + 2n`, ... below `H`,
and the result has `n` bits. -/
def Obligations.FoldBitsAreParities : Prop :=
  ∀ (h len n : Nat), 1 ≤ n → h < 2 ^ len →
    fold h len n < 2 ^ n ∧
    ∀ j < n, (fold h len n).testBit j =
      (List.range len).foldl (fun b k => b ^^ (decide (k % n = j) && h.testBit k)) false

/-- R195: the fold is linear over XOR. -/
def Obligations.FoldIsLinear : Prop :=
  ∀ (a b len n : Nat), fold (a ^^^ b) len n = fold a len n ^^^ fold b len n ∧ fold 0 len n = 0

/-- R183: a fold window at least as wide as the history leaves the history as it is. -/
def Obligations.FoldDegenerates : Prop :=
  ∀ (h len n : Nat), len ≤ n → h < 2 ^ len → fold h len n = h

/-- R194: with `X_H = X_W` the Custom global index is the masked history XOR the masked `pc`; with `X_H = X_C` the chooser
index is the masked history, the Tournament's. -/
def Obligations.CustomIndicesAtTheBoundary : Prop :=
  ∀ (p : Config.Params) (phr pc : Nat),
    (p.xH.bits = p.xW.bits →
      (customPlan p phr pc).gi = (phr &&& mask p.xW.bits) ^^^ (pc &&& mask p.xW.bits)) ∧
    (p.xH.bits = p.xC.bits → (customPlan p phr pc).ci = phr &&& mask p.xC.bits)

/-! The assembler (30_encoding R93, R94). -/

/-- R94: BRANCH is PREDICT and then TRAIN; JUMP is a TRAIN of a direct branch that is not conditional. -/
def Obligations.PseudoInstructionsExpand : Prop :=
  ∀ (pc target : Addr) (o : Dir),
    assemble (.branch pc o) = assemble (.predict pc) ++ assemble (.train pc o) ∧
    assemble (.jump pc target) =
      assemble (.trainFull pc .taken { c := false, l := false, r := false, d := true } target)
end

