-- ==== Sys2Proof/Laws/Encode.lean ====
section
/-! SUPPORT. The fields of a packed command word are what it was packed from (spec 30_encoding R80). -/

namespace Sys2Proof

@[simp] theorem ofBool_toBool (o : Dir) : Dir.ofBool o.toBool = o := by cases o <;> rfl

@[simp] theorem toBool_ofBool (b : Bool) : (Dir.ofBool b).toBool = b := by cases b <;> rfl

section Packed
variable (op : BitVec 3) (d r c n o : Bool) (target pc : Addr)

/-- Bit `k` of a packed word, by the field it lies in (R80). -/
theorem getLsbD_packWord (k : Nat) : (packWord op d r c n o target pc).getLsbD k =
    if k < 32 then pc.getLsbD k else if k < 64 then target.getLsbD (k - 32) else if k = 64 then o else
    if k = 65 then n else if k = 66 then c else if k = 67 then r else if k = 68 then d else op.getLsbD (k - 69) := by
  unfold packWord
  simp only [BitVec.getLsbD_append, BitVec.getLsbD_ofBool]
  repeat' split
  all_goals first | rfl | omega | skip
  all_goals simp_all

@[simp] theorem opField_packWord : opField (packWord op d r c n o target pc) = op := by
  apply BitVec.eq_of_getLsbD_eq
  intro k hk
  rw [opField, BitVec.getLsbD_extractLsb', getLsbD_packWord]
  simp [hk, show ¬ 69 + k < 32 by omega, show ¬ 69 + k < 64 by omega, show 69 + k ≠ 64 by omega,
    show 69 + k ≠ 65 by omega, show 69 + k ≠ 66 by omega, show 69 + k ≠ 67 by omega, show 69 + k ≠ 68 by omega]

@[simp] theorem pcField_packWord : pcField (packWord op d r c n o target pc) = pc := by
  apply BitVec.eq_of_getLsbD_eq
  intro k hk
  rw [pcField, BitVec.getLsbD_extractLsb', getLsbD_packWord]
  simp [hk]

@[simp] theorem targetField_packWord : targetField (packWord op d r c n o target pc) = target := by
  apply BitVec.eq_of_getLsbD_eq
  intro k hk
  rw [targetField, BitVec.getLsbD_extractLsb', getLsbD_packWord]
  simp [hk, show 32 + k < 64 by omega]

@[simp] theorem isDirectField_packWord : isDirectField (packWord op d r c n o target pc) = d := by
  rw [isDirectField, getLsbD_packWord]; rfl

@[simp] theorem isReturnField_packWord : isReturnField (packWord op d r c n o target pc) = r := by
  rw [isReturnField, getLsbD_packWord]; rfl

@[simp] theorem isCallField_packWord : isCallField (packWord op d r c n o target pc) = c := by
  rw [isCallField, getLsbD_packWord]; rfl

@[simp] theorem isConditionalField_packWord : isConditionalField (packWord op d r c n o target pc) = n := by
  rw [isConditionalField, getLsbD_packWord]; rfl

@[simp] theorem outcomeField_packWord : outcomeField (packWord op d r c n o target pc) = Dir.ofBool o := by
  rw [outcomeField, getLsbD_packWord]; rfl

@[simp] theorem schemeSelField_packWord :
    schemeSelField (packWord op d r c n o target pc) = pc.extractLsb' 0 4 := by
  apply BitVec.eq_of_getLsbD_eq
  intro k hk
  rw [schemeSelField, BitVec.getLsbD_extractLsb', BitVec.getLsbD_extractLsb', getLsbD_packWord]
  simp [hk, show k < 32 by omega]

end Packed

@[simp] theorem schemeSelField_packInit (sel : BitVec 4) : schemeSelField (packInit sel) = sel := by
  rw [packInit, schemeSelField_packWord]
  revert sel; decide

@[simp] theorem opField_packInit (sel : BitVec 4) : opField (packInit sel) = 0#3 := opField_packWord ..

end Sys2Proof
end

