-- ==== Sys2Proof/Laws/Operands.lean ====
section
/-! SUPPORT. Every masked value fits its mask: histories stay inside their width, and every index inside its table
(spec R61). -/

namespace Sys2Proof.Machine

theorem mask_lt (k : Nat) : mask k < 2 ^ k := Nat.sub_lt (Nat.two_pow_pos k) Nat.one_pos

theorem and_mask (v k : Nat) : v &&& mask k = v % 2 ^ k := Nat.and_two_pow_sub_one_eq_mod v k

theorem and_mask_lt (v k : Nat) : v &&& mask k < 2 ^ k := and_mask v k ▸ Nat.mod_lt v (Nat.two_pow_pos k)

theorem and_mask_of_lt {v k : Nat} (h : v < 2 ^ k) : v &&& mask k = v := and_mask v k ▸ Nat.mod_eq_of_lt h

/-- The bits of a masked value are those of the value below the mask's width. -/
theorem testBit_and_mask (v k j : Nat) : (v &&& mask k).testBit j = (decide (j < k) && v.testBit j) := by
  simp [and_mask, Nat.testBit_mod_two_pow]

theorem shl1_lt (h : Nat) (o : Dir) (n : Nat) : shl1 h o n < 2 ^ n := and_mask_lt _ n

theorem gidx_lt (g pc h : Nat) : gidx g pc h < 2 ^ g := Nat.xor_lt_two_pow (and_mask_lt pc g) (and_mask_lt h g)

theorem foldLoop_lt (h len : Nat) {n f : Nat} (hf : f < 2 ^ n) (fuel i : Nat) : foldLoop h len n fuel i f < 2 ^ n := by
  induction fuel generalizing i f with
  | zero => exact hf
  | succ fuel ih =>
    unfold foldLoop
    split
    · exact ih (Nat.xor_lt_two_pow hf (and_mask_lt _ n)) (i + 1)
    · exact hf

theorem fold_lt (h len n : Nat) : fold h len n < 2 ^ n := foldLoop_lt h len (and_mask_lt h n) len 1

/-- The three indices of a plan are inside the tables they index. -/
def Plan.inRange (p : Plan) : Prop := p.li < 2 ^ p.lhtBits ∧ p.gi < 2 ^ p.globalBits ∧ p.ci < 2 ^ p.chooserBits

theorem tournamentPlan_inRange (p : Config.Params) (phr pc : Nat) : (tournamentPlan p phr pc).inRange :=
  ⟨and_mask_lt _ _, and_mask_lt _ _, and_mask_lt _ _⟩

theorem customPlan_inRange (p : Config.Params) (phr pc : Nat) : (customPlan p phr pc).inRange :=
  ⟨and_mask_lt _ _, Nat.xor_lt_two_pow (fold_lt _ _ _) (and_mask_lt _ _), fold_lt _ _ _⟩

end Sys2Proof.Machine
end

