-- ==== Sys2Proof/Laws/State.lean ====
section
/-! SUPPORT. What each update of the state does to each field and to each view of it, so that no proof unfolds a record
update or a shared operation for its fields. -/

namespace Sys2Proof.Machine

/-! The views, by the state of the control FSM. -/

section Views
variable {s : State} {a : SchemeState} {c : Cause} {left : Option SchemeState}

theorem views_of_uninit (h : s.ctl = .uninit) :
    s.ctlState = .uninit ∧ s.scheme = none ∧ s.active = none ∧ s.faultCode = none ∧ s.faultFlag = false := by
  simp [State.ctlState, State.scheme, State.active, State.faultCode, State.faultFlag, h]

theorem views_of_ready (h : s.ctl = .ready a) :
    s.ctlState = .ready ∧ s.scheme = some (schemeOf a) ∧ s.active = some a ∧ s.faultCode = none
      ∧ s.faultFlag = false := by
  simp [State.ctlState, State.scheme, State.active, State.faultCode, State.faultFlag, h]

theorem views_of_faulted (h : s.ctl = .faulted c left) :
    s.ctlState = .faulted ∧ s.scheme = none ∧ s.active = left ∧ s.faultCode = some c ∧ s.faultFlag = true := by
  simp [State.ctlState, State.scheme, State.active, State.faultCode, State.faultFlag, h]

theorem ctl_of_uninit (h : s.ctlState = .uninit) : s.ctl = .uninit := by
  rcases hc : s.ctl with _ | _ | _ <;> simp_all [State.ctlState]

theorem ctl_of_ready (h : s.ctlState = .ready) : ∃ a, s.ctl = .ready a := by
  rcases hc : s.ctl with _ | a | _ <;> simp_all [State.ctlState]

theorem ctl_of_faulted (h : s.ctlState = .faulted) : ∃ c left, s.ctl = .faulted c left := by
  rcases hc : s.ctl with _ | _ | ⟨c, left⟩ <;> simp_all [State.ctlState]

end Views

/-! The updates. -/

section Updates
variable (s : State) (d : Option Dir) (c : Cause) (a : SchemeState)

@[simp] theorem respond_cfg : (s.respond d).cfg = s.cfg := rfl
@[simp] theorem respond_ctl : (s.respond d).ctl = s.ctl := rfl
@[simp] theorem respond_inputs : (s.respond d).inputs = s.inputs := rfl
@[simp] theorem respond_resp :
    (s.respond d).resp = some { faultCode := s.faultCode, fault := s.faultFlag, pred := d } := rfl

@[simp] theorem ignore_cfg : s.ignore.cfg = s.cfg := rfl
@[simp] theorem ignore_ctl : s.ignore.ctl = s.ctl := rfl
@[simp] theorem ignore_inputs : s.ignore.inputs = s.inputs := rfl
@[simp] theorem ignore_resp :
    s.ignore.resp = some { faultCode := s.faultCode, fault := s.faultFlag, pred := none } := rfl

@[simp] theorem raise_cfg : (s.raise c).cfg = s.cfg := rfl
@[simp] theorem raise_ctl : (s.raise c).ctl = .faulted c s.active := rfl
@[simp] theorem raise_inputs : (s.raise c).inputs = s.inputs := rfl
@[simp] theorem raise_resp :
    (s.raise c).resp = some { faultCode := some c, fault := true, pred := none } := rfl

@[simp] theorem becomeReady_cfg : (s.becomeReady a).cfg = s.cfg := rfl
@[simp] theorem becomeReady_ctl : (s.becomeReady a).ctl = .ready a := rfl
@[simp] theorem becomeReady_inputs : (s.becomeReady a).inputs = s.inputs := rfl
@[simp] theorem becomeReady_resp :
    (s.becomeReady a).resp = some { faultCode := none, fault := false, pred := none } := rfl

@[simp] theorem release_cfg : s.release.cfg = s.cfg := rfl
@[simp] theorem release_ctl : s.release.ctl = .uninit := rfl
@[simp] theorem release_inputs : s.release.inputs = s.inputs := rfl
@[simp] theorem release_resp :
    s.release.resp = some { faultCode := none, fault := false, pred := none } := rfl

@[simp] theorem hardwareReset_cfg : s.hardwareReset.cfg = s.cfg := rfl
@[simp] theorem hardwareReset_ctl : s.hardwareReset.ctl = .uninit := rfl
@[simp] theorem hardwareReset_inputs : s.hardwareReset.inputs = s.inputs := rfl
@[simp] theorem hardwareReset_resp : s.hardwareReset.resp = none := rfl

@[simp] theorem hold_cfg : s.hold.cfg = s.cfg := rfl
@[simp] theorem hold_ctl : s.hold.ctl = s.ctl := rfl
@[simp] theorem hold_inputs : s.hold.inputs = s.inputs := rfl
@[simp] theorem hold_resp : s.hold.resp = none := rfl

theorem resetOf_fields (p : Config.Params) :
    (State.resetOf p).cfg = p ∧ (State.resetOf p).ctl = .uninit ∧ (State.resetOf p).resp = none
      ∧ (State.resetOf p).inputs = [] := ⟨rfl, rfl, rfl, rfl⟩

/-- A state is its four fields. -/
theorem state_ext {s t : State} (hcfg : s.cfg = t.cfg) (hctl : s.ctl = t.ctl) (hresp : s.resp = t.resp)
    (hin : s.inputs = t.inputs) : s = t := by
  cases s; cases t; simp_all

end Updates

end Sys2Proof.Machine
end

