-- ==== Sys2Proof/Laws/Table.lean ====
section
/-! SUPPORT. The laws of tables: a read after a write, and that a write keeps the canonical form. The read laws hold of
every table, canonical or not. -/

namespace Sys2Proof.Machine

section Tables
variable {α : Type} (seed : α)

theorem read_erase (t : Table α) (i j : Nat) :
    tableRead seed (tableErase t i) j = if j = i then seed else tableRead seed t j := by
  induction t with
  | nil => simp [tableErase, tableRead]
  | cons e t ih =>
    obtain ⟨k, v⟩ := e
    by_cases hk : k = i
    · subst hk
      rw [tableErase, if_pos rfl, ih]
      by_cases hj : j = k
      · simp [hj]
      · simp [tableRead, hj, Ne.symm hj]
    · by_cases hj : k = j
      · subst hj; simp [tableErase, tableRead, hk]
      · simp [tableErase, tableRead, hk, hj, ih]

theorem read_insert {t : Table α} {i : Nat} (v : α) (hi : ∀ e ∈ t, e.1 ≠ i) (j : Nat) :
    tableRead seed (tableInsert i v t) j = if j = i then v else tableRead seed t j := by
  induction t with
  | nil => simp only [tableInsert, tableRead, @eq_comm _ i j]
  | cons e t ih =>
    obtain ⟨k, w⟩ := e
    have hk : k ≠ i := hi (k, w) (by simp)
    have ih := ih fun e he => hi e (by simp [he])
    by_cases hlt : i < k
    · by_cases hj : j = i
      · simp [tableInsert, tableRead, hlt, hj]
      · simp [tableInsert, tableRead, hlt, hj, Ne.symm hj]
    · by_cases hj : k = j
      · subst hj; simp [tableInsert, tableRead, hlt, hk]
      · simp [tableInsert, tableRead, hlt, hj, ih]

theorem mem_erase {t : Table α} {i : Nat} {e : Nat × α} : e ∈ tableErase t i ↔ e ∈ t ∧ e.1 ≠ i := by
  induction t with
  | nil => simp [tableErase]
  | cons f t ih =>
    obtain ⟨k, v⟩ := f
    by_cases hk : k = i
    · subst hk
      simp only [tableErase, if_pos, ih, List.mem_cons]
      constructor
      · rintro ⟨h1, h2⟩; exact ⟨.inr h1, h2⟩
      · rintro ⟨rfl | h1, h2⟩
        · exact absurd rfl h2
        · exact ⟨h1, h2⟩
    · simp only [tableErase, if_neg hk, List.mem_cons, ih]
      constructor
      · rintro (rfl | ⟨h1, h2⟩)
        · exact ⟨.inl rfl, hk⟩
        · exact ⟨.inr h1, h2⟩
      · rintro ⟨rfl | h1, h2⟩
        · exact .inl rfl
        · exact .inr ⟨h1, h2⟩

theorem mem_insert {t : Table α} {i : Nat} {v : α} {e : Nat × α} :
    e ∈ tableInsert i v t ↔ e = (i, v) ∨ e ∈ t := by
  induction t with
  | nil => simp [tableInsert]
  | cons f t ih =>
    obtain ⟨k, w⟩ := f
    by_cases hlt : i < k
    · simp [tableInsert, hlt]
    · simp only [tableInsert, if_neg hlt, List.mem_cons, ih]
      tauto

/-- A read after a write: the written entry at the index, every other entry as before. -/
theorem read_write [DecidableEq α] (t : Table α) (i : Nat) (v : α) (j : Nat) :
    tableRead seed (tableWrite seed t i v) j = if j = i then v else tableRead seed t j := by
  unfold tableWrite
  split
  · rename_i hv; rw [read_erase, hv]
  · rw [read_insert seed v (fun e he => (mem_erase.mp he).2), read_erase]
    by_cases hj : j = i <;> simp [hj]

theorem rising_mono {t : Table α} {lo lo' : Nat} (h : tableRising lo t = true) (hl : lo' ≤ lo) :
    tableRising lo' t = true := by
  cases t with
  | nil => rfl
  | cons e t => obtain ⟨k, v⟩ := e; simp [tableRising] at h ⊢; exact ⟨by omega, h.2⟩

theorem rising_erase {t : Table α} {lo : Nat} (i : Nat) (h : tableRising lo t = true) :
    tableRising lo (tableErase t i) = true := by
  induction t generalizing lo with
  | nil => rfl
  | cons e t ih =>
    obtain ⟨k, v⟩ := e
    simp [tableRising] at h
    by_cases hk : k = i
    · simp only [tableErase, if_pos hk]; exact rising_mono (ih h.2) (by omega)
    · simp [tableErase, hk, tableRising, h.1, ih h.2]

theorem rising_insert {t : Table α} {lo i : Nat} (v : α) (hi : ∀ e ∈ t, e.1 ≠ i) (hlo : lo ≤ i)
    (h : tableRising lo t = true) : tableRising lo (tableInsert i v t) = true := by
  induction t generalizing lo with
  | nil => simp [tableInsert, tableRising, hlo]
  | cons e t ih =>
    obtain ⟨k, w⟩ := e
    simp [tableRising] at h
    have hk : k ≠ i := hi (k, w) (by simp)
    by_cases hlt : i < k
    · simp [tableInsert, hlt, tableRising, hlo, h.2]
    · simp [tableInsert, hlt, tableRising, h.1]
      exact ih (fun e he => hi e (by simp [he])) (by omega) h.2

theorem wf_iff [DecidableEq α] {size : Nat} {ok : α → Bool} {t : Table α} :
    Table.wf seed size ok t = true ↔
      tableRising 0 t = true ∧ ∀ e ∈ t, e.1 < size ∧ e.2 ≠ seed ∧ ok e.2 = true := by
  simp [Table.wf, and_assoc]

/-- The empty table, every entry at its seed, is canonical. -/
theorem wf_nil [DecidableEq α] (size : Nat) (ok : α → Bool) : Table.wf seed size ok [] = true := rfl

/-- A write inside the table of an entry that is ok keeps the canonical form. -/
theorem wf_write [DecidableEq α] {size : Nat} {ok : α → Bool} {t : Table α} {i : Nat} {v : α}
    (h : Table.wf seed size ok t = true) (hi : i < size) (hv : ok v = true) :
    Table.wf seed size ok (tableWrite seed t i v) = true := by
  obtain ⟨hr, hm⟩ := (wf_iff seed).mp h
  unfold tableWrite
  split
  · exact (wf_iff seed).mpr ⟨rising_erase i hr, fun e he => hm e (mem_erase.mp he).1⟩
  · rename_i hne
    refine (wf_iff seed).mpr
      ⟨rising_insert v (fun e he => (mem_erase.mp he).2) (Nat.zero_le i) (rising_erase i hr), fun e he => ?_⟩
    rcases mem_insert.mp he with rfl | he
    · exact ⟨hi, hne, hv⟩
    · exact hm e (mem_erase.mp he).1

/-- An entry that is read from a canonical table is the seed or ok. -/
theorem read_of_wf [DecidableEq α] {size : Nat} {ok : α → Bool} {t : Table α}
    (h : Table.wf seed size ok t = true) (i : Nat) :
    tableRead seed t i = seed ∨ ok (tableRead seed t i) = true := by
  obtain ⟨-, hm⟩ := (wf_iff seed).mp h
  clear h
  induction t with
  | nil => exact .inl rfl
  | cons e t ih =>
    obtain ⟨k, v⟩ := e
    by_cases hk : k = i
    · simp [tableRead, hk]; exact .inr (hm (k, v) (by simp)).2.2
    · simp [tableRead, hk]; exact ih fun e he => hm e (by simp [he])

end Tables

end Sys2Proof.Machine
end

