-- ==== Sys2Proof/Laws/Ops.lean ====
section
/-! SUPPORT. What each shared operation can do: cells, table accesses, the acceptance checks, and the end of a command. -/

namespace Sys2Proof.Machine

/-! Cells. -/

@[simp] theorem cellOfCode_cellCode (c : Cell) : cellOfCode (cellCode c) = some c := by cases c <;> rfl

/-- Every stored 2-bit pattern is a state (R39). -/
theorem cellOfCode_total (b : BitVec 2) : ∃ c, cellOfCode b = some c ∧ cellCode c = b := by
  revert b; decide

theorem cellCode_of_cellOfCode {b : BitVec 2} {c : Cell} (h : cellOfCode b = some c) : cellCode c = b := by
  obtain ⟨c', h', hb⟩ := cellOfCode_total b
  rw [h] at h'; cases h'; exact hb

/-! Table accesses inside the table. -/

/-- A read inside the table comes out as the one state the stored code is. -/
theorem readCell_inside {k i : Nat} (t : CounterTable) (hi : i < 2 ^ k) :
    ∃ c, cellOfCode (cellAt t i) = some c ∧ readCell k t i = .ok c := by
  obtain ⟨c, hc, -⟩ := cellOfCode_total (cellAt t i)
  exact ⟨c, hc, by simp [readCell, hi, hc]⟩

theorem writeCell_inside {k i : Nat} (t : CounterTable) (c : Cell) (hi : i < 2 ^ k) :
    writeCell k t i c = .ok (tableWrite cellSeed t i (cellCode c)) := by simp [writeCell, hi]

theorem readHistory_inside {k i : Nat} (t : HistoryTable) (hi : i < 2 ^ k) :
    readHistory k t i = .ok (historyAt t i) := by simp [readHistory, hi]

theorem writeHistory_inside {k w i v : Nat} (t : HistoryTable) (hi : i < 2 ^ k) (hv : v < 2 ^ w) :
    writeHistory k w t i v = .ok (tableWrite 0 t i v) := by simp [writeHistory, hi, hv]

/-- A cell after a write: the written cell at its index, every other cell as before. -/
theorem cellAt_write (t : CounterTable) (i : Nat) (c : Cell) (j : Nat) :
    cellAt (tableWrite cellSeed t i (cellCode c)) j = if j = i then cellCode c else cellAt t j :=
  read_write cellSeed t i (cellCode c) j

/-- A local-history entry after a write: the written entry at its index, every other entry as before. -/
theorem historyAt_write (t : HistoryTable) (i v j : Nat) :
    historyAt (tableWrite 0 t i v) j = if j = i then v else historyAt t j := read_write 0 t i v j

theorem counterTableWf_nil (k : Nat) : counterTableWf k [] = true := rfl

theorem historyTableWf_nil (k w : Nat) : historyTableWf k w [] = true := rfl

theorem counterTableWf_write {k i : Nat} {t : CounterTable} (h : counterTableWf k t = true) (hi : i < 2 ^ k)
    (v : BitVec 2) : counterTableWf k (tableWrite cellSeed t i v) = true := wf_write cellSeed h hi rfl

theorem historyTableWf_write {k w i v : Nat} {t : HistoryTable} (h : historyTableWf k w t = true) (hi : i < 2 ^ k)
    (hv : v < 2 ^ w) : historyTableWf k w (tableWrite 0 t i v) = true := wf_write 0 h hi (by simpa using hv)

/-! The acceptance checks, by the state of the control FSM (R200). -/

section Gates
variable {s : State}

theorem whenReady_ready {a : SchemeState} (h : s.ctl = .ready a) (run : SchemeState → StepResult) :
    s.whenReady run = run a := by simp [State.whenReady, h]

theorem whenReady_uninit (h : s.ctl = .uninit) (run : SchemeState → StepResult) :
    s.whenReady run = .next (s.raise .protocolViolation) := by simp [State.whenReady, h]

theorem whenReady_faulted {c : Cause} {left : Option SchemeState} (h : s.ctl = .faulted c left)
    (run : SchemeState → StepResult) : s.whenReady run = .next s.ignore := by simp [State.whenReady, h]

theorem whenUninit_uninit (h : s.ctl = .uninit) (run : StepResult) : s.whenUninit run = run := by
  simp [State.whenUninit, h]

theorem whenUninit_ready {a : SchemeState} (h : s.ctl = .ready a) (run : StepResult) :
    s.whenUninit run = .next (s.raise .protocolViolation) := by simp [State.whenUninit, h]

theorem whenUninit_faulted {c : Cause} {left : Option SchemeState} (h : s.ctl = .faulted c left) (run : StepResult) :
    s.whenUninit run = .next s.ignore := by simp [State.whenUninit, h]

theorem unlessFaulted_faulted {c : Cause} {left : Option SchemeState} (h : s.ctl = .faulted c left) (run : StepResult) :
    s.unlessFaulted run = .next s.ignore := by simp [State.unlessFaulted, h]

theorem unlessFaulted_else (h : s.ctlState ≠ .faulted) (run : StepResult) : s.unlessFaulted run = run := by
  rcases hc : s.ctl with _ | a | ⟨c, left⟩
  · simp [State.unlessFaulted, hc]
  · simp [State.unlessFaulted, hc]
  · exact absurd (views_of_faulted hc).1 h

end Gates

/-- A command whose pseudocode comes out has its effect. -/
@[simp] theorem conclude_ok {α : Type} (s : State) (a : α) (effect : α → State) :
    s.conclude (.ok a) effect = .next (effect a) := rfl

/-- What the host sends next, by the list of its events. -/
theorem fetch_nil {s : State} (h : s.inputs = []) : s.fetch = .nothing := by simp [State.fetch, h]

theorem fetch_reset {s : State} {rest : List HostEvent} (h : s.inputs = .reset :: rest) :
    s.fetch = .reset { s with inputs := rest } := by simp [State.fetch, h]

theorem fetch_command {s : State} {w : CmdWord} {rest : List HostEvent} (h : s.inputs = .command w :: rest) :
    s.fetch = .command w { s with inputs := rest } := by simp [State.fetch, h]

end Sys2Proof.Machine
end

