-- ==== Sys2Proof/Laws/Scheme.lean ====
section
/-! SUPPORT. What PREDICT and TRAIN of each scheme come out as: they always come out (no bad cell, no access outside a
table), with the direction and the scheme state the spec gives, and a trained scheme state fits its build if the old one
did. -/

namespace Sys2Proof.Machine

/-! Gshare (R141, R143). -/

theorem gsharePredict_eq (p : Config.Params) (pc : Addr) (g : GshareState) :
    ∃ c, cellOfCode (cellAt g.bht (gidx p.g.bits pc.toNat g.ghr)) = some c ∧ gsharePredict p pc g = .ok (dir c) := by
  obtain ⟨c, hc, hr⟩ := readCell_inside g.bht (gidx_lt p.g.bits pc.toNat g.ghr)
  exact ⟨c, hc, by simp only [gsharePredict, hr]; rfl⟩

theorem gshareTrain_eq (p : Config.Params) (pc : Addr) (o : Dir) (g : GshareState) :
    ∃ c, cellOfCode (cellAt g.bht (gidx p.g.bits pc.toNat g.ghr)) = some c ∧
      gshareTrain p pc o g = .ok
        { bht := tableWrite cellSeed g.bht (gidx p.g.bits pc.toNat g.ghr) (cellCode (upd c o))
          ghr := shl1 g.ghr o p.g.bits } := by
  obtain ⟨c, hc, hr⟩ := readCell_inside g.bht (gidx_lt p.g.bits pc.toNat g.ghr)
  exact ⟨c, hc, by
    simp only [gshareTrain, hr, bind, Except.bind, writeCell_inside g.bht (upd c o) (gidx_lt p.g.bits pc.toNat g.ghr)]
    rfl⟩

/-! The shared predictor (R162, R163, R186, R187). -/

/-- The index into the local table (R160, R184). -/
def localIndex (p : Plan) (h : HybridState) : Nat := historyAt h.lht p.li &&& mask p.localBits

/-- The three cells a branch is handled with. -/
structure Cells where
  lc : Cell
  gc : Cell
  cc : Cell

/-- The cells are those the tables hold at the plan's indices. -/
def Cells.at (x : Cells) (p : Plan) (h : HybridState) : Prop :=
  cellOfCode (cellAt h.localTbl (localIndex p h)) = some x.lc ∧ cellOfCode (cellAt h.globalTbl p.gi) = some x.gc
    ∧ cellOfCode (cellAt h.chooserTbl p.ci) = some x.cc

theorem cells_exist (p : Plan) (h : HybridState) : ∃ x : Cells, x.at p h := by
  obtain ⟨lc, hl, -⟩ := cellOfCode_total (cellAt h.localTbl (localIndex p h))
  obtain ⟨gc, hg, -⟩ := cellOfCode_total (cellAt h.globalTbl p.gi)
  obtain ⟨cc, hc, -⟩ := cellOfCode_total (cellAt h.chooserTbl p.ci)
  exact ⟨⟨lc, gc, cc⟩, hl, hg, hc⟩

theorem readCell_of {k i : Nat} {t : CounterTable} {c : Cell} (hi : i < 2 ^ k) (hc : cellOfCode (cellAt t i) = some c) :
    readCell k t i = .ok c := by simp [readCell, hi, hc]

theorem hybridPredict_eq {p : Plan} {h : HybridState} {x : Cells} (hr : p.inRange) (hx : x.at p h) :
    hybridPredict p h = .ok (if dir x.cc = .taken then dir x.lc else dir x.gc) := by
  obtain ⟨hli, hgi, hci⟩ := hr
  obtain ⟨hl, hg, hc⟩ := hx
  have hl' := readCell_of (k := p.localBits) (and_mask_lt (historyAt h.lht p.li) p.localBits) hl
  simp only [hybridPredict, readCell_of hci hc, readHistory_inside h.lht hli, readCell_of hgi hg]
  cases hd : dir x.cc
  · simp [bind, Except.bind, hd, pure, Except.pure]
  · simp only [bind, Except.bind, hd, hl']; rfl

/-- The chooser table after TRAIN (R164, R188). -/
def trainedChooser (p : Plan) (o : Dir) (h : HybridState) (x : Cells) : CounterTable :=
  match chooserStep x.cc (dir x.lc) (dir x.gc) o with
  | some c => tableWrite cellSeed h.chooserTbl p.ci (cellCode c)
  | none => h.chooserTbl

theorem hybridTrain_eq {p : Plan} {h : HybridState} {x : Cells} (o : Dir) (hr : p.inRange) (hx : x.at p h) :
    hybridTrain p o h = .ok
      { lht := tableWrite 0 h.lht p.li (shl1 (localIndex p h) o p.localBits)
        localTbl := tableWrite cellSeed h.localTbl (localIndex p h) (cellCode (upd x.lc o))
        globalTbl := tableWrite cellSeed h.globalTbl p.gi (cellCode (upd x.gc o))
        chooserTbl := trainedChooser p o h x
        phr := shl1 h.phr o p.pathBits } := by
  obtain ⟨hli, hgi, hci⟩ := hr
  obtain ⟨hl, hg, hc⟩ := hx
  have hlt := and_mask_lt (historyAt h.lht p.li) p.localBits
  have hl' := readCell_of (k := p.localBits) hlt hl
  have hw := writeHistory_inside h.lht hli (shl1_lt (historyAt h.lht p.li &&& mask p.localBits) o p.localBits)
  simp only [hybridTrain, readCell_of hci hc, readHistory_inside h.lht hli, readCell_of hgi hg, bind, Except.bind, hl',
    writeCell_inside h.localTbl (upd x.lc o) hlt, writeCell_inside h.globalTbl (upd x.gc o) hgi, hw, trainedChooser]
  cases chooserStep x.cc (dir x.lc) (dir x.gc) o with
  | none => rfl
  | some c => simp only [writeCell_inside h.chooserTbl c hci]; rfl

/-! A trained scheme state fits its build if the old one did. -/

theorem gshareTrain_wf {p : Config.Params} {pc : Addr} {o : Dir} {g g' : GshareState}
    (ht : gshareTrain p pc o g = .ok g') (hg : g.wf p = true) : g'.wf p = true := by
  obtain ⟨c, -, he⟩ := gshareTrain_eq p pc o g
  rw [he] at ht; cases ht
  simp only [GshareState.wf, Bool.and_eq_true, decide_eq_true_eq] at hg ⊢
  exact ⟨counterTableWf_write hg.1 (gidx_lt _ _ _) _, shl1_lt _ _ _⟩

theorem trainedChooser_wf {p : Plan} {h : HybridState} {x : Cells} (o : Dir) (hr : p.inRange)
    (hc : counterTableWf p.chooserBits h.chooserTbl = true) :
    counterTableWf p.chooserBits (trainedChooser p o h x) = true := by
  unfold trainedChooser
  split
  · exact counterTableWf_write hc hr.2.2 _
  · exact hc

theorem tournamentTrain_wf {p : Config.Params} {pc : Addr} {o : Dir} {h h' : HybridState}
    (ht : tournamentTrain p pc o h = .ok h') (hh : tournamentWf p h = true) : tournamentWf p h' = true := by
  have hr := tournamentPlan_inRange p h.phr pc.toNat
  obtain ⟨x, hx⟩ := cells_exist (tournamentPlan p h.phr pc.toNat) h
  rw [tournamentTrain, hybridTrain_eq o hr hx] at ht; cases ht
  simp only [tournamentWf, Bool.and_eq_true, decide_eq_true_eq] at hh ⊢
  obtain ⟨⟨⟨⟨h1, h2⟩, h3⟩, h4⟩, -⟩ := hh
  exact ⟨⟨⟨⟨historyTableWf_write h1 hr.1 (shl1_lt _ _ _), counterTableWf_write h2 (and_mask_lt _ _) _⟩,
    counterTableWf_write h3 hr.2.1 _⟩, trainedChooser_wf o hr h4⟩, shl1_lt _ _ _⟩

theorem customTrain_wf {p : Config.Params} {pc : Addr} {o : Dir} {h h' : HybridState}
    (ht : customTrain p pc o h = .ok h') (hh : customWf p h = true) : customWf p h' = true := by
  have hr := customPlan_inRange p h.phr pc.toNat
  obtain ⟨x, hx⟩ := cells_exist (customPlan p h.phr pc.toNat) h
  rw [customTrain, hybridTrain_eq o hr hx] at ht; cases ht
  simp only [customWf, Bool.and_eq_true, decide_eq_true_eq] at hh ⊢
  obtain ⟨⟨⟨⟨h1, h2⟩, h3⟩, h4⟩, -⟩ := hh
  exact ⟨⟨⟨⟨historyTableWf_write h1 hr.1 (shl1_lt _ _ _), counterTableWf_write h2 (and_mask_lt _ _) _⟩,
    counterTableWf_write h3 hr.2.1 _⟩, trainedChooser_wf o hr h4⟩, shl1_lt _ _ _⟩

end Sys2Proof.Machine
end

