-- ==== Sys2Proof/Laws/Exec.lean ====
section
/-! SUPPORT. Says once what one instruction and one step can do: every instruction comes to a next state, which is one of
the `Effect`s below; every step is an idle step, a reset, or an instruction on the state less the host's event. -/

namespace Sys2Proof.Machine

/-! The rows of one word do the same thing: what the word does in the mode at hand (R201, R202). -/

section Rows
variable (pc target : Addr) (o : Dir) (call ret d : Bool) (s : State)

theorem execPredictStatic_eq : execPredictStatic pc target d s = s.whenReady (s.dispatchPredict pc) := by
  unfold execPredictStatic; congr; funext a; cases a <;> rfl

theorem execPredictGshare_eq : execPredictGshare pc target d s = s.whenReady (s.dispatchPredict pc) := by
  unfold execPredictGshare; congr; funext a; cases a <;> rfl

theorem execPredictTournament_eq : execPredictTournament pc target d s = s.whenReady (s.dispatchPredict pc) := by
  unfold execPredictTournament; congr; funext a; cases a <;> rfl

theorem execPredictCustom_eq : execPredictCustom pc target d s = s.whenReady (s.dispatchPredict pc) := by
  unfold execPredictCustom; congr; funext a; cases a <;> rfl

theorem execTrainStatic_eq : execTrainStatic pc target o call ret d s = s.whenReady (s.dispatchTrain pc o) := by
  unfold execTrainStatic; congr; funext a; cases a <;> rfl

theorem execTrainGshare_eq : execTrainGshare pc target o call ret d s = s.whenReady (s.dispatchTrain pc o) := by
  unfold execTrainGshare; congr; funext a; cases a <;> rfl

theorem execTrainTournament_eq : execTrainTournament pc target o call ret d s = s.whenReady (s.dispatchTrain pc o) := by
  unfold execTrainTournament; congr; funext a; cases a <;> rfl

theorem execTrainCustom_eq : execTrainCustom pc target o call ret d s = s.whenReady (s.dispatchTrain pc o) := by
  unfold execTrainCustom; congr; funext a; cases a <;> rfl

end Rows

/-! Dispatch always comes out. -/

theorem dispatchPredict_next (s : State) (pc : Addr) (a : SchemeState) :
    ∃ d, s.dispatchPredict pc a = .next (s.respond (some d)) := by
  cases a with
  | static => exact ⟨.taken, rfl⟩
  | gshare g =>
    obtain ⟨c, -, h⟩ := gsharePredict_eq s.cfg pc g
    exact ⟨dir c, by simp [State.dispatchPredict, State.predicted, h]⟩
  | tournament h =>
    obtain ⟨x, hx⟩ := cells_exist (tournamentPlan s.cfg h.phr pc.toNat) h
    exact ⟨if dir x.cc = .taken then dir x.lc else dir x.gc, by
      simp only [State.dispatchPredict, State.predicted, tournamentPredict,
        hybridPredict_eq (tournamentPlan_inRange s.cfg h.phr pc.toNat) hx, conclude_ok]⟩
  | custom h =>
    obtain ⟨x, hx⟩ := cells_exist (customPlan s.cfg h.phr pc.toNat) h
    exact ⟨if dir x.cc = .taken then dir x.lc else dir x.gc, by
      simp only [State.dispatchPredict, State.predicted, customPredict,
        hybridPredict_eq (customPlan_inRange s.cfg h.phr pc.toNat) hx, conclude_ok]⟩

/-- One TRAIN took the scheme state `a` to `a'`. -/
inductive Trained (p : Config.Params) : SchemeState → SchemeState → Prop where
  | gshare {pc : Addr} {o : Dir} {g g' : GshareState} (h : gshareTrain p pc o g = .ok g') :
      Trained p (.gshare g) (.gshare g')
  | tournament {pc : Addr} {o : Dir} {h h' : HybridState} (ht : tournamentTrain p pc o h = .ok h') :
      Trained p (.tournament h) (.tournament h')
  | custom {pc : Addr} {o : Dir} {h h' : HybridState} (ht : customTrain p pc o h = .ok h') :
      Trained p (.custom h) (.custom h')

theorem Trained.schemeOf_eq {p : Config.Params} {a a' : SchemeState} (h : Trained p a a') : schemeOf a' = schemeOf a := by
  cases h <;> rfl

theorem Trained.wf {p : Config.Params} {a a' : SchemeState} (h : Trained p a a') (ha : a.wf p = true) :
    a'.wf p = true := by
  cases h with
  | gshare h => exact gshareTrain_wf h ha
  | tournament h => exact tournamentTrain_wf h ha
  | custom h => exact customTrain_wf h ha

theorem dispatchTrain_next (s : State) (pc : Addr) (o : Dir) (a : SchemeState) :
    s.dispatchTrain pc o a = .next (s.respond none) ∨
      ∃ a', Trained s.cfg a a' ∧ s.dispatchTrain pc o a = .next (s.becomeReady a') := by
  cases a with
  | static => exact .inl rfl
  | gshare g =>
    obtain ⟨c, -, h⟩ := gshareTrain_eq s.cfg pc o g
    exact .inr ⟨_, .gshare h, by simp [State.dispatchTrain, State.trained, h]⟩
  | tournament h =>
    obtain ⟨x, hx⟩ := cells_exist (tournamentPlan s.cfg h.phr pc.toNat) h
    have ht := hybridTrain_eq o (tournamentPlan_inRange s.cfg h.phr pc.toNat) hx
    exact .inr ⟨_, .tournament (pc := pc) (o := o) ht, by simp only [State.dispatchTrain, State.trained, tournamentTrain, ht, conclude_ok]⟩
  | custom h =>
    obtain ⟨x, hx⟩ := cells_exist (customPlan s.cfg h.phr pc.toNat) h
    have ht := hybridTrain_eq o (customPlan_inRange s.cfg h.phr pc.toNat) hx
    exact .inr ⟨_, .custom (pc := pc) (o := o) ht, by simp only [State.dispatchTrain, State.trained, customTrain, ht, conclude_ok]⟩

/-! What one instruction can do. -/

/-- The scheme states INIT gives. -/
def IsSeed (a : SchemeState) : Prop :=
  a = .static ∨ a = .gshare gshareSeed ∨ a = .tournament tournamentSeed ∨ a = .custom customSeed

/-- The next states of one instruction. -/
inductive Effect (s : State) : State → Prop where
  /-- FAULTED: nothing but the answer (R219). -/
  | ignored (h : s.ctlState = .faulted) : Effect s s.ignore
  /-- A fault taken, never INVARIANT_VIOLATION (R232, R236). -/
  | raised {c : Cause} (h : s.ctlState ≠ .faulted) (hc : c ≠ .invariantViolation) : Effect s (s.raise c)
  /-- INIT (R203). -/
  | seeded {a : SchemeState} (h : s.ctlState = .uninit) (ha : IsSeed a) : Effect s (s.becomeReady a)
  /-- PREDICT, and TRAIN where it is a no-op. -/
  | answered (d : Option Dir) (h : s.ctlState = .ready) : Effect s (s.respond d)
  /-- TRAIN. -/
  | trained {a a' : SchemeState} (h : s.ctl = .ready a) (ht : Trained s.cfg a a') : Effect s (s.becomeReady a')
  /-- CLEANUP (R211). -/
  | released (h : s.ctlState = .ready) : Effect s s.release

theorem whenReady_effect {s : State} {run : SchemeState → StepResult}
    (hrun : ∀ a, s.ctl = .ready a → ∃ t, run a = .next t ∧ Effect s t) :
    ∃ t, s.whenReady run = .next t ∧ Effect s t := by
  rcases hc : s.ctl with _ | a | ⟨c, left⟩
  · exact ⟨_, whenReady_uninit hc run, .raised (by simp [(views_of_uninit hc).1]) (by decide)⟩
  · rw [whenReady_ready hc]; exact hrun a hc
  · exact ⟨_, whenReady_faulted hc run, .ignored (views_of_faulted hc).1⟩

theorem whenUninit_effect {s : State} {run : StepResult}
    (hrun : s.ctl = .uninit → ∃ t, run = .next t ∧ Effect s t) : ∃ t, s.whenUninit run = .next t ∧ Effect s t := by
  rcases hc : s.ctl with _ | a | ⟨c, left⟩
  · rw [whenUninit_uninit hc]; exact hrun hc
  · exact ⟨_, whenUninit_ready hc run, .raised (by simp [(views_of_ready hc).1]) (by decide)⟩
  · exact ⟨_, whenUninit_faulted hc run, .ignored (views_of_faulted hc).1⟩

theorem init_effect {s : State} {a : SchemeState} (ha : IsSeed a) :
    ∃ t, s.whenUninit (.next (s.becomeReady a)) = .next t ∧ Effect s t :=
  whenUninit_effect fun h => ⟨_, rfl, .seeded (views_of_uninit h).1 ha⟩

theorem predict_effect (s : State) (pc : Addr) : ∃ t, s.whenReady (s.dispatchPredict pc) = .next t ∧ Effect s t :=
  whenReady_effect fun a h => by
    obtain ⟨d, hd⟩ := dispatchPredict_next s pc a
    exact ⟨_, hd, .answered _ (views_of_ready h).1⟩

theorem train_effect (s : State) (pc : Addr) (o : Dir) :
    ∃ t, s.whenReady (s.dispatchTrain pc o) = .next t ∧ Effect s t :=
  whenReady_effect fun a h => by
    rcases dispatchTrain_next s pc o a with hd | ⟨a', ht, hd⟩
    · exact ⟨_, hd, .answered _ (views_of_ready h).1⟩
    · exact ⟨_, hd, .trained h ht⟩

/-- Every instruction comes to a next state, by one of the effects. -/
theorem exec_effect (i : Instr) (s : State) : ∃ t, exec i s = .next t ∧ Effect s t := by
  cases i with
  | initStatic => exact init_effect (.inl rfl)
  | initGshare => exact init_effect (.inr (.inl rfl))
  | initTournament => exact init_effect (.inr (.inr (.inl rfl)))
  | initCustom => exact init_effect (.inr (.inr (.inr rfl)))
  | initUnknown sel =>
    exact whenUninit_effect fun h => ⟨_, rfl, .raised (by simp [(views_of_uninit h).1]) (by decide)⟩
  | predictStatic pc t d => simpa only [exec, execPredictStatic_eq] using predict_effect s pc
  | predictGshare pc t d => simpa only [exec, execPredictGshare_eq] using predict_effect s pc
  | predictTournament pc t d => simpa only [exec, execPredictTournament_eq] using predict_effect s pc
  | predictCustom pc t d => simpa only [exec, execPredictCustom_eq] using predict_effect s pc
  | trainNc pc t o c r d =>
    exact whenReady_effect fun a h => ⟨_, rfl, .answered none (views_of_ready h).1⟩
  | trainStatic pc t o c r d => simpa only [exec, execTrainStatic_eq] using train_effect s pc o
  | trainGshare pc t o c r d => simpa only [exec, execTrainGshare_eq] using train_effect s pc o
  | trainTournament pc t o c r d => simpa only [exec, execTrainTournament_eq] using train_effect s pc o
  | trainCustom pc t o c r d => simpa only [exec, execTrainCustom_eq] using train_effect s pc o
  | cleanup => exact whenReady_effect fun a h => ⟨_, rfl, .released (views_of_ready h).1⟩
  | reserved op =>
    rcases hc : s.ctl with _ | a | ⟨c, left⟩
    · exact ⟨_, unlessFaulted_else (by simp [(views_of_uninit hc).1]) _,
        .raised (by simp [(views_of_uninit hc).1]) (by decide)⟩
    · exact ⟨_, unlessFaulted_else (by simp [(views_of_ready hc).1]) _,
        .raised (by simp [(views_of_ready hc).1]) (by decide)⟩
    · exact ⟨_, unlessFaulted_faulted hc _, .ignored (views_of_faulted hc).1⟩

/-- An instruction that comes to a next state does so by one of the effects. -/
theorem effect_of_exec {i : Instr} {s t : State} (h : exec i s = .next t) : Effect s t := by
  obtain ⟨t', h', he⟩ := exec_effect i s
  rw [h] at h'; cases h'; exact he

/-- No instruction changes the build or the host's events. -/
theorem Effect.frame {s t : State} (h : Effect s t) : t.cfg = s.cfg ∧ t.inputs = s.inputs := by
  cases h <;> exact ⟨rfl, rfl⟩

/-! What one step can do. -/

theorem step_nil {s : State} (h : s.inputs = []) : step s = .next s.hold := by simp [step, fetch_nil h]

theorem step_reset {s : State} {rest : List HostEvent} (h : s.inputs = .reset :: rest) :
    step s = .next (State.hardwareReset { s with inputs := rest }) := by simp [step, fetch_reset h]

theorem step_command {s : State} {w : CmdWord} {rest : List HostEvent} (h : s.inputs = .command w :: rest) :
    step s = exec (decode s.scheme w) { s with inputs := rest } := by simp [step, fetch_command h]

/-- Every step is an idle step, a reset, or an instruction's effect on the state less the host's event. -/
theorem step_effect (s : State) : ∃ t, step s = .next t ∧
    ((s.inputs = [] ∧ t = s.hold) ∨
      (∃ rest, s.inputs = .reset :: rest ∧ t = State.hardwareReset { s with inputs := rest }) ∨
      (∃ w rest, s.inputs = .command w :: rest ∧ exec (decode s.scheme w) { s with inputs := rest } = .next t
        ∧ Effect { s with inputs := rest } t)) := by
  rcases hi : s.inputs with _ | ⟨e, rest⟩
  · exact ⟨_, step_nil hi, .inl ⟨rfl, rfl⟩⟩
  · cases e with
    | reset => exact ⟨_, step_reset hi, .inr (.inl ⟨rest, rfl, rfl⟩)⟩
    | command w =>
      obtain ⟨t, ht, he⟩ := exec_effect (decode s.scheme w) { s with inputs := rest }
      exact ⟨t, (step_command hi).trans ht, .inr (.inr ⟨w, rest, rfl, ht, he⟩)⟩

/-! Runs. -/

/-- A run whose first step comes to a next state goes on from there. -/
theorem run_succ (n : Nat) {s t : State} (h : step s = .next t) : core.run (n + 1) s = core.run n t := by
  have h' : core.step s = .next t := h
  simp only [Host.Core.run, h']

/-- A script always comes to a state. -/
theorem afterScript_next (s : State) (script : Script) : ∃ t, afterScript s script = some t := by
  induction script generalizing s with
  | nil => exact ⟨s, rfl⟩
  | cons move rest ih =>
    obtain ⟨t, h, -⟩ := step_effect { s with inputs := (move.map HostEvent.command).toList }
    simpa only [afterScript, h] using ih t

/-- A script in two parts is the second part from where the first one ends. -/
theorem afterScript_append {s t : State} {first : Script} (h : afterScript s first = some t) (second : Script) :
    afterScript s (first ++ second) = afterScript t second := by
  induction first generalizing s with
  | nil => cases h; rfl
  | cons move rest ih =>
    obtain ⟨u, hu, -⟩ := step_effect { s with inputs := (move.map HostEvent.command).toList }
    simp only [List.cons_append, afterScript, hu] at h ⊢
    exact ih h

/-- A script's last step in which the host presents a command. -/
theorem afterScript_command {s t : State} {first : Script} (h : afterScript s first = some t) (w : CmdWord) {u : State}
    (hu : exec (decode t.scheme w) { t with inputs := [] } = .next u) :
    afterScript s (first ++ [some w]) = some u := by
  have hs := (step_command (s := { t with inputs := [.command w] }) rfl).trans hu
  rw [afterScript_append h]; simp [afterScript, hs]

/-- Steps in which the host sends nothing keep the block as it is. -/
theorem afterScript_idle {s t : State} {script : Script} (hi : ∀ move ∈ script, move = none)
    (h : afterScript s script = some t) : t.ctl = s.ctl := by
  induction script generalizing s with
  | nil => cases h; rfl
  | cons move rest ih =>
    obtain rfl := hi move (by simp)
    simp only [afterScript, Option.map_none, Option.toList_none,
      step_nil (s := { s with inputs := [] }) rfl] at h
    exact (ih (s := State.hold { s with inputs := [] }) (fun m hm => hi m (by simp [hm])) h : t.ctl = s.ctl)

end Sys2Proof.Machine
end

