-- ==== Sys2Proof/Laws/PerInstr.lean ====
section
/-! SUPPORT. Statements about every instruction as syntax, one lemma per constructor: the OP field of an instruction's
word is the OP code of its format (spec 30_encoding R80, R82 to R85, R89). -/

namespace Sys2Proof.Laws.EncodedOpcode

/-- The OP code of an instruction's format: INIT 0, PREDICT 1, TRAIN 2, CLEANUP 3, and a reserved code is its own. -/
def opCode : Instr → BitVec 3
  | .initStatic | .initGshare | .initTournament | .initCustom | .initUnknown _ => 0#3
  | .predictStatic .. | .predictGshare .. | .predictTournament .. | .predictCustom .. => 1#3
  | .trainNc .. | .trainStatic .. | .trainGshare .. | .trainTournament .. | .trainCustom .. => 2#3
  | .cleanup => 3#3
  | .reserved op => op

/-- The word of the instruction has its format's OP code in the OP field. -/
def Statement (i : Instr) : Prop := opField (encode i) = opCode i

theorem initStatic : Statement .initStatic := opField_packWord ..
theorem initGshare : Statement .initGshare := opField_packWord ..
theorem initTournament : Statement .initTournament := opField_packWord ..
theorem initCustom : Statement .initCustom := opField_packWord ..
theorem initUnknown (sel : BitVec 4) : Statement (.initUnknown sel) := opField_packWord ..
theorem predictStatic (pc target : Addr) (isDirect : Bool) : Statement (.predictStatic pc target isDirect) :=
  opField_packWord ..
theorem predictGshare (pc target : Addr) (isDirect : Bool) : Statement (.predictGshare pc target isDirect) :=
  opField_packWord ..
theorem predictTournament (pc target : Addr) (isDirect : Bool) : Statement (.predictTournament pc target isDirect) :=
  opField_packWord ..
theorem predictCustom (pc target : Addr) (isDirect : Bool) : Statement (.predictCustom pc target isDirect) :=
  opField_packWord ..
theorem trainNc (pc target : Addr) (outcome : Dir) (isCall isReturn isDirect : Bool) :
    Statement (.trainNc pc target outcome isCall isReturn isDirect) := opField_packWord ..
theorem trainStatic (pc target : Addr) (outcome : Dir) (isCall isReturn isDirect : Bool) :
    Statement (.trainStatic pc target outcome isCall isReturn isDirect) := opField_packWord ..
theorem trainGshare (pc target : Addr) (outcome : Dir) (isCall isReturn isDirect : Bool) :
    Statement (.trainGshare pc target outcome isCall isReturn isDirect) := opField_packWord ..
theorem trainTournament (pc target : Addr) (outcome : Dir) (isCall isReturn isDirect : Bool) :
    Statement (.trainTournament pc target outcome isCall isReturn isDirect) := opField_packWord ..
theorem trainCustom (pc target : Addr) (outcome : Dir) (isCall isReturn isDirect : Bool) :
    Statement (.trainCustom pc target outcome isCall isReturn isDirect) := opField_packWord ..
theorem cleanup : Statement .cleanup := opField_packWord ..
theorem reserved (op : BitVec 3) : Statement (.reserved op) := opField_packWord ..

end Sys2Proof.Laws.EncodedOpcode
end

