-- ==== Sys2Proof/Tests/Slice0.lean ====
section
/-! SUPPORT. Tests of one decoding, one operation or one step each, with values worked out in spec/95_test_vectors.md, and
for each obligation with premises a witness: a concrete state and operands that meet all of them together. -/

namespace Sys2Proof.Tests

open Sys2Proof.Machine

/-! Helpers. -/

/-- An index width of `n` bits, for `n` from 1 to 32. -/
def width (n : Nat) : Config.IndexWidth := ⟨Fin.ofNat 32 (n - 1)⟩

/-- A build with one table index width `k` for every table but the local ones of 2 and 1 bits, and a Custom history of
`len` bits. -/
def build (k len : Nat) : Config.Params :=
  { g := width k, tL := width 2, tP := width 1, tGp := width 2, tC := width k, xL := width 2, xP := width 1, xW := width 2
    xC := width k, xH := ⟨len - 1⟩ }

/-- A machine of a build in a control state, with the host's next words. -/
def machine (p : Config.Params) (ctl : Ctl) (words : List CmdWord) : State :=
  { cfg := p, ctl := ctl, resp := none, inputs := words.map .command }

/-- A canonical counter table from all its cells, those at WN left out. -/
def cells (l : List Cell) : CounterTable :=
  (l.zipIdx.filter fun e => decide (e.1 ≠ .wn)).map fun e => (e.2, cellCode e.1)

/-- A canonical local-history table from all its entries, those at 0 left out. -/
def entries (l : List Nat) : HistoryTable := (l.zipIdx.filter fun e => decide (e.1 ≠ 0)).map fun e => (e.2, e.1)

/-- The next state, if there is one. -/
def after : StepResult → Option State
  | .next t => some t
  | .fault _ | .refused _ => none

/-- The control state after a step. -/
def ctlAfter (r : StepResult) : Option Ctl := (after r).map State.ctl

/-- The response word of a step. -/
def respAfter (r : StepResult) : Option RespWord := ((after r).bind State.resp).map respWord

/-- Gshare with G = 2. -/
def gsh (l : List Cell) (ghr : Nat) : Ctl := .ready (.gshare { bht := cells l, ghr := ghr })

/-- The hand-set Tournament state of vector 2.4. -/
def tour24 : HybridState :=
  { lht := entries [3, 0], localTbl := cells [.wn, .wn, .wn, .st], globalTbl := cells [.wn, .sn, .wn, .wn]
    chooserTbl := cells [.wn, .wn, .wn, .wn], phr := 1 }

/-- The Custom state of program P3 after step 4. -/
def cust34 : HybridState :=
  { lht := entries [2, 3], localTbl := cells [.st, .wn, .wn, .wn], globalTbl := cells [.wt, .sn, .st, .wn]
    chooserTbl := cells [.wn, .wn, .wn, .wn], phr := 13 }

/-! Well-formedness: one ill-formed term for each check. -/

theorem test_wellFormed_selector : (Instr.initUnknown 3#4).wellFormed = false := by decide
theorem test_wellFormed_op : (Instr.reserved 3#3).wellFormed = false := by decide

/-! Decoding: words written out field by field from R80, `OP, IS_DIRECT, IS_RETURN, IS_CALL, IS_CONDITIONAL, OUTCOME,
TARGET, PC`. -/

theorem test_decode_initStatic : decode none (0b000#3 ++ 0b00000#5 ++ 0#32 ++ 0x0#32) = .initStatic := by decide
theorem test_decode_initGshare : decode none 0x1FFFFFFFFFFFFFFFF1#72 = .initGshare := by decide
theorem test_decode_initTournament : decode none (0b000#3 ++ 0b00000#5 ++ 0#32 ++ 0x2#32) = .initTournament := by decide
theorem test_decode_initCustom : decode none (0b000#3 ++ 0b00000#5 ++ 0#32 ++ 0x3#32) = .initCustom := by decide
theorem test_decode_initUnknown :
    decode none 0x000000000000000004#72 = .initUnknown 4#4 ∧ decode none 0x00000000000000000F#72 = .initUnknown 15#4 := by
  decide
theorem test_decode_predictStatic :
    decode (some .static) (0b001#3 ++ 0b00000#5 ++ 0#32 ++ 0x1234#32) = .predictStatic 0x1234#32 0#32 false := by decide
theorem test_decode_predictGshare :
    decode (some .gshare) (0b001#3 ++ 0b10000#5 ++ 0xFFFFFFFF#32 ++ 0xA#32) = .predictGshare 0xA#32 0xFFFFFFFF#32 true := by
  decide
theorem test_decode_predictTournament :
    decode (some .tournament) 0x200000000000000004#72 = .predictTournament 4#32 0#32 false := by decide
theorem test_decode_predictCustom :
    decode (some .custom) 0x200000000000000006#72 = .predictCustom 6#32 0#32 false := by decide
theorem test_decode_trainNc :
    decode (some .gshare) (0b010#3 ++ 0b10101#5 ++ 0x1000#32 ++ 0x40#32) =
      .trainNc 0x40#32 0x1000#32 .taken true false true ∧
    decode (some .gshare) (0b010#3 ++ 0b01001#5 ++ 0#32 ++ 0x40#32) = .trainNc 0x40#32 0#32 .taken false true false := by
  decide
theorem test_decode_trainStatic :
    decode (some .static) 0x420000000000001234#72 = .trainStatic 0x1234#32 0#32 .notTaken false false false := by decide
theorem test_decode_trainGshare :
    decode (some .gshare) (0b010#3 ++ 0b10011#5 ++ 0x1000#32 ++ 0xA#32) =
      .trainGshare 0xA#32 0x1000#32 .taken false false true := by decide
theorem test_decode_trainTournament :
    decode (some .tournament) 0x430000000000000004#72 = .trainTournament 4#32 0#32 .taken false false false := by decide
theorem test_decode_trainCustom :
    decode (some .custom) 0x420000000000000006#72 = .trainCustom 6#32 0#32 .notTaken false false false := by decide
theorem test_decode_cleanup : decode none (0b011#3 ++ 0b00000#5 ++ 0#32 ++ 0#32) = .cleanup := by decide
theorem test_decode_reserved :
    decode none 0x800000000000000000#72 = .reserved 4#3 ∧ decode none 0xE00000000000000000#72 = .reserved 7#3 := by decide
theorem test_decode_tooLong : decodeTableWord 72 (2 ^ 72) = none ∧ decodeTableWord 72 (3 * 2 ^ 69) = some .cleanup := by
  decide

/-! Vectors 2.1 to 2.5: the counter, the shift, the indices, the fold. -/

theorem test_upd : upd .wn .taken = .wt ∧ upd .wt .notTaken = .wn ∧ upd .sn .taken = .wn ∧ upd .st .notTaken = .wt := by
  decide
theorem test_shl1 :
    shl1 0b11 .notTaken 2 = 0b10 ∧ shl1 1 .taken 1 = 1 ∧ shl1 0b10110110 .taken 8 = 0b01101101 ∧
      shl1 0xFFFFFFFF .notTaken 32 = 0xFFFFFFFE := by decide
theorem test_gidx :
    gidx 2 0b1011 0b10 = 1 ∧ gidx 1 7 1 = 0 ∧ gidx 10 0xDEADBEEF 0x2A5 = 0x04A ∧
      gidx 32 0xDEADBEEF 0xFFFFFFFF = 0x21524110 := by decide
theorem test_fold :
    fold 0b10110110 8 3 = 2 ∧ fold 0b10110110 8 1 = 1 ∧ fold 0b101 3 5 = 0b101 ∧ fold 0b1000000000 10 4 = 2 := by decide
theorem test_fold_wide : fold 0xDEADBEEF 32 12 = 0x4EA ∧ fold 0xDEADBEEF 32 10 = 0x069 := by decide

/-! One step per command, from 95 sections 1, 2.3 to 2.6 and 3. -/

theorem test_step_initStatic :
    ctlAfter (step (machine (build 2 5) .uninit [0x0#72])) = some (.ready .static) := by decide
theorem test_step_initGshare :
    ctlAfter (step (machine (build 2 5) .uninit [0x1FFFFFFFFFFFFFFFF1#72])) = some (gsh [.wn, .wn, .wn, .wn] 0) := by decide
theorem test_step_initGshare_ready :
    ctlAfter (step (machine (build 2 5) (.ready .static) [0x1#72])) = some (.faulted .protocolViolation (some .static)) ∧
    respAfter (step (machine (build 2 5) (.ready .static) [0x1#72])) = some 0x0E#5 := by decide
theorem test_step_initTournament :
    ctlAfter (step (machine (build 2 5) .uninit [0x2#72])) = some (.ready (.tournament
      { lht := entries [0, 0], localTbl := cells [.wn, .wn, .wn, .wn], globalTbl := cells [.wn, .wn, .wn, .wn]
        chooserTbl := cells [.wn, .wn, .wn, .wn], phr := 0 })) := by decide
theorem test_step_initCustom :
    ctlAfter (step (machine (build 2 5) .uninit [0x3#72])) = some (.ready (.custom
      { lht := entries [0, 0], localTbl := cells [.wn, .wn, .wn, .wn], globalTbl := cells [.wn, .wn, .wn, .wn]
        chooserTbl := cells [.wn, .wn, .wn, .wn], phr := 0 })) := by decide
theorem test_step_initUnknown :
    ctlAfter (step (machine (build 2 5) .uninit [0xF#72])) = some (.faulted .configError none) ∧
    respAfter (step (machine (build 2 5) .uninit [0xF#72])) = some 0x06#5 := by decide
theorem test_step_initUnknown_ready :
    ctlAfter (step (machine (build 2 5) (.ready .static) [0x9#72])) = some (.faulted .protocolViolation (some .static)) := by
  decide

/-- Vector 2.6, Static. -/
theorem test_step_predictStatic :
    respAfter (step (machine (build 2 5) (.ready .static) [0x200000000000001234#72])) = some 0x01#5 := by decide
theorem test_step_predict_uninit :
    respAfter (step (machine (build 2 5) .uninit [0x200000000000000000#72])) = some 0x0E#5 := by decide
/-- Program P4: index 1 ^ 3 = 2, cell ST. -/
theorem test_step_predictGshare :
    respAfter (step (machine (build 2 5) (gsh [.wn, .wn, .st, .wn] 3) [0x200000000000000001#72])) = some 0x01#5 := by decide
/-- Ignored operands, and only `pc & mask(2)` is used: index 2 ^ 1 = 3, cell WN. -/
theorem test_step_predictGshare_ignored :
    respAfter (step (machine (build 2 5) (gsh [.wn, .wn, .wt, .wn] 1) [0x30FFFFFFFFFFFFFFFA#72])) = some 0x00#5 := by decide
/-- Vector 2.4: chooser WN selects global, which is SN. -/
theorem test_step_predictTournament_global :
    respAfter (step (machine (build 2 5) (.ready (.tournament tour24)) [0x200000000000000004#72])) = some 0x00#5 := by decide
/-- Vector 2.4: chooser WT selects local, which is ST. -/
theorem test_step_predictTournament_local :
    respAfter (step (machine (build 2 5) (.ready (.tournament { tour24 with chooserTbl := cells [.wn, .wt, .wn, .wn] }))
      [0x200000000000000004#72])) = some 0x01#5 := by decide
/-- Program P3 step 5: chooser cell 2 is WN, global cell 0 is WT. -/
theorem test_step_predictCustom :
    respAfter (step (machine (build 2 5) (.ready (.custom cust34)) [0x200000000000000006#72])) = some 0x01#5 := by decide
/-- The same with chooser cell 2 at WT: local cell 2 is WN. -/
theorem test_step_predictCustom_local :
    respAfter (step (machine (build 2 5) (.ready (.custom { cust34 with chooserTbl := cells [.wn, .wn, .wt, .wn] }))
      [0x200000000000000006#72])) = some 0x00#5 := by decide

theorem test_step_trainNc :
    ctlAfter (step (machine (build 2 5) (gsh [.wn, .st, .wt, .wt] 3) [0x41000000000000000A#72])) =
      some (gsh [.wn, .st, .wt, .wt] 3) := by decide
theorem test_step_trainNc_uninit :
    respAfter (step (machine (build 2 5) .uninit [0x400000000000000000#72])) = some 0x0E#5 := by decide
theorem test_step_trainStatic :
    ctlAfter (step (machine (build 2 5) (.ready .static) [0x420000000000001234#72])) = some (.ready .static) ∧
    respAfter (step (machine (build 2 5) (.ready .static) [0x420000000000001234#72])) = some 0x00#5 := by decide
/-- Vector 2.3: the index is that of the history before the shift, the oldest bit is lost. -/
theorem test_step_trainGshare :
    ctlAfter (step (machine (build 2 5) (gsh [.wn, .st, .wt, .wt] 3) [0x42000000000000000A#72])) =
      some (gsh [.wn, .wt, .wt, .wt] 2) := by decide
/-- S7 row 2. -/
theorem test_step_trainGshare_taken :
    ctlAfter (step (machine (build 2 5) (gsh [.wn, .wn, .wn, .wn] 0) [0x53000010000000000A#72])) =
      some (gsh [.wn, .wn, .wt, .wn] 1) := by decide
/-- Vector 2.4, one full TRAIN. -/
theorem test_step_trainTournament :
    ctlAfter (step (machine (build 2 5) (.ready (.tournament tour24)) [0x430000000000000004#72])) = some (.ready (.tournament
      { lht := entries [3, 0], localTbl := cells [.wn, .wn, .wn, .st], globalTbl := cells [.wn, .wn, .wn, .wn]
        chooserTbl := cells [.wn, .wt, .wn, .wn], phr := 3 })) := by decide
/-- Program P2 step 8: T_C = 3 wider than T_GP = 2, and the local side right on NotTaken. -/
theorem test_step_trainTournament_notTaken :
    ctlAfter (step (machine (build 3 5) (.ready (.tournament
      { lht := entries [3, 1], localTbl := cells [.st, .wn, .wt, .st], globalTbl := cells [.wt, .st, .wt, .wt]
        chooserTbl := cells [.wn, .wt, .wn, .wt, .wn, .sn, .wn, .wn], phr := 7 })) [0x420000000000000007#72])) =
    some (.ready (.tournament
      { lht := entries [3, 2], localTbl := cells [.st, .sn, .wt, .st], globalTbl := cells [.wt, .st, .wt, .wn]
        chooserTbl := cells [.wn, .wt, .wn, .wt, .wn, .sn, .wn, .wt], phr := 6 })) := by decide
/-- Program P3 step 5: chooser cell 2 to SN, the global side right. -/
theorem test_step_trainCustom :
    ctlAfter (step (machine (build 2 5) (.ready (.custom cust34)) [0x430000000000000006#72])) = some (.ready (.custom
      { lht := entries [1, 3], localTbl := cells [.st, .wn, .wt, .wn], globalTbl := cells [.st, .sn, .st, .wn]
        chooserTbl := cells [.wn, .wn, .sn, .wn], phr := 27 })) := by decide
/-- Program P3 step 7: saturation, and the sub-predictions agree. -/
theorem test_step_trainCustom_agree :
    ctlAfter (step (machine (build 2 5) (.ready (.custom
      { lht := entries [1, 3], localTbl := cells [.st, .wn, .wt, .wt], globalTbl := cells [.st, .sn, .st, .wt]
        chooserTbl := cells [.wn, .wn, .sn, .wn], phr := 23 })) [0x420000000000000006#72])) = some (.ready (.custom
      { lht := entries [2, 3], localTbl := cells [.st, .sn, .wt, .wt], globalTbl := cells [.st, .sn, .st, .wt]
        chooserTbl := cells [.wn, .wn, .sn, .wn], phr := 14 })) := by decide

theorem test_step_cleanup :
    ctlAfter (step (machine (build 2 5) (gsh [.wn, .wn, .wt, .wn] 1) [0x600000000000000000#72])) = some .uninit ∧
    respAfter (step (machine (build 2 5) (gsh [.wn, .wn, .wt, .wn] 1) [0x600000000000000000#72])) = some 0x00#5 := by decide
theorem test_step_cleanup_uninit :
    respAfter (step (machine (build 2 5) .uninit [0x600000000000000000#72])) = some 0x0E#5 := by decide
theorem test_step_reserved :
    ctlAfter (step (machine (build 2 5) .uninit [0xE00000000000000000#72])) = some (.faulted .illegalCommand none) ∧
    respAfter (step (machine (build 2 5) .uninit [0xE00000000000000000#72])) = some 0x12#5 := by decide
/-- Sticky: a reserved OP in FAULTED is ignored, and the stored code is answered. -/
theorem test_step_reserved_faulted :
    ctlAfter (step (machine (build 2 5) (.faulted .configError none) [0x800000000000000000#72])) =
      some (.faulted .configError none) ∧
    respAfter (step (machine (build 2 5) (.faulted .configError none) [0x800000000000000000#72])) = some 0x06#5 := by decide

/-- A row run in another mode does what its word does there: S7 row 1 by the Custom row. -/
theorem test_exec_otherRow :
    respAfter (exec (.predictCustom 1#32 0#32 false) (machine (build 2 5) (gsh [.wn, .wn, .st, .wn] 3) [])) =
      some 0x01#5 := by decide

/-- A word placed by `withFetchWord` is the next command, from reset on. -/
theorem test_withFetchWord :
    ctlAfter (step (State.reset.withFetchWord 72 0x1)) = some (.ready (.gshare gshareSeed)) := by decide

theorem test_reset_pulse :
    ctlAfter (step { machine (build 2 5) (.faulted .configError none) [] with inputs := [.reset] }) = some .uninit := by
  decide

/-- R93's and R94's examples. -/
theorem test_assemble :
    assemble (.trainFull 0x40#32 .taken { c := false, l := true, r := false, d := true } 0x1000#32) =
      [.command 0x550000100000000040#72] ∧
    assemble (.jump 0x40#32 0x1000#32) = [.command 0x510000100000000040#72] ∧
    assemble (.branch 0xA#32 .notTaken) = [.command 0x20000000000000000A#72, .command 0x42000000000000000A#72] ∧
    assemble (.init .tournament) = [.command 0x2#72] := by decide

/-- Writing the seed back unlists the entry, and an out-of-order write keeps the order. -/
theorem test_table_canonical :
    tableWrite cellSeed (cells [.st, .wn, .wt]) 0 cellSeed = cells [.wn, .wn, .wt] ∧
    tableWrite cellSeed (cells [.st, .wn, .wt]) 1 (cellCode .sn) = cells [.st, .sn, .wt] := by decide

/-- The host's ordering duty of R270: a paired branch keeps it; a TRAIN without its PREDICT and two interleaved branches
do not. -/
theorem test_keepsOrder :
    keepsOrder none (assemble (.branch 0xA#32 .taken)) = true ∧ keepsOrder none (assemble (.train 0xA#32 .taken)) = false ∧
    keepsOrder none (assembleAll [.predict 1#32, .predict 2#32, .train 1#32 .taken, .train 2#32 .taken]) = false := by
  decide
/-- Log 20: a branch that is not conditional, reported by itself or after its own PREDICT, keeps the duty; asked about and
not reported it does not; reported between another branch's PREDICT and TRAIN it does not (R270: "with no TRAIN of
another branch between them"). -/
theorem test_keepsOrder_notConditional :
    keepsOrder none (assembleAll [.jump 0x40#32 0#32, .branch 1#32 .taken]) = true ∧
    keepsOrder none (assembleAll [.predict 0x40#32, .jump 0x40#32 0#32, .branch 1#32 .taken]) = true ∧
    keepsOrder none (assembleAll [.predict 1#32, .jump 0x40#32 0#32, .train 1#32 .taken]) = false ∧
    keepsOrder none (assembleAll [.predict 0x40#32, .branch 1#32 .taken]) = false := by decide

/-- R276: INIT and CLEANUP, and then nothing sent, ends well: the last command was the accepted CLEANUP. -/
theorem test_endedWell_idle :
    EndedWell (machine (build 2 5) (gsh [.st] 1) []) [some 0x1#72, none, some 0x600000000000000000#72, none] :=
  ⟨[some 0x1#72, none], [none], _, _, rfl, by simp, by decide, rfl, rfl⟩
/-- P5: a second CLEANUP goes wrong. INIT alone is unfinished. -/
theorem test_goneWrong_unfinished :
    GoneWrong (machine (build 2 5) .uninit []) [some 0x0#72, some 0x600000000000000000#72, some 0x600000000000000000#72] ∧
    Unfinished (machine (build 2 5) .uninit []) [some 0x2#72] := ⟨⟨_, rfl, rfl⟩, ⟨_, rfl, rfl⟩⟩

/-! Witnesses: the premises of each obligation, met together. -/

theorem witness_DecodeOfEncode :
    (Instr.trainCustom 0xFFFFFFFF#32 0xFFFFFFFF#32 .taken true true true).wellFormed = true ∧
    (Instr.trainCustom 0xFFFFFFFF#32 0xFFFFFFFF#32 .taken true true true).readIn (some .custom) = true ∧
    (Instr.initUnknown 4#4).wellFormed = true ∧ (Instr.initUnknown 15#4).readIn none = true ∧
    (Instr.reserved 4#3).wellFormed = true ∧ (Instr.reserved 7#3).readIn (some .static) = true := by decide

/-- Each clause at the ends of its range of words. -/
theorem witness_OpcodeMapByMatchAndMask :
    0x1FFFFFFFFFFFFFFFF0#72 &&& 0xE0000000000000000F#72 = 0x000000000000000000#72 ∧
    0x1FFFFFFFFFFFFFFFF1#72 &&& 0xE0000000000000000F#72 = 0x000000000000000001#72 ∧
    0x1FFFFFFFFFFFFFFFF2#72 &&& 0xE0000000000000000F#72 = 0x000000000000000002#72 ∧
    0x1FFFFFFFFFFFFFFFF3#72 &&& 0xE0000000000000000F#72 = 0x000000000000000003#72 ∧
    0x1FFFFFFFFFFFFFFFF7#72 &&& 0xE0000000000000000C#72 = 0x000000000000000004#72 ∧
    0x1FFFFFFFFFFFFFFFFF#72 &&& 0xE00000000000000008#72 = 0x000000000000000008#72 ∧
    0x3FFFFFFFFFFFFFFFFF#72 &&& 0xE00000000000000000#72 = 0x200000000000000000#72 ∧
    0x5DFFFFFFFFFFFFFFFF#72 &&& 0xE20000000000000000#72 = 0x400000000000000000#72 ∧
    0x5FFFFFFFFFFFFFFFFF#72 &&& 0xE20000000000000000#72 = 0x420000000000000000#72 ∧
    0x7FFFFFFFFFFFFFFFFF#72 &&& 0xE00000000000000000#72 = 0x600000000000000000#72 ∧
    0xFFFFFFFFFFFFFFFFFF#72 &&& 0x800000000000000000#72 = 0x800000000000000000#72 := by decide

/-- One pair of different words for each format, with every ignored bit different. -/
theorem witness_IgnoredFieldsHaveNoEffect :
    0x000000000000000001#72 &&& usedBits 0x000000000000000001#72 =
      0x1FFFFFFFFFFFFFFFF1#72 &&& usedBits 0x1FFFFFFFFFFFFFFFF1#72 ∧
    0x20000000000000000A#72 &&& usedBits 0x20000000000000000A#72 =
      0x3FFFFFFFFF0000000A#72 &&& usedBits 0x3FFFFFFFFF0000000A#72 ∧
    0x43000000000000000A#72 &&& usedBits 0x43000000000000000A#72 =
      0x5FFFFFFFFF0000000A#72 &&& usedBits 0x5FFFFFFFFF0000000A#72 ∧
    0x600000000000000000#72 &&& usedBits 0x600000000000000000#72 =
      0x7FFFFFFFFFFFFFFFFF#72 &&& usedBits 0x7FFFFFFFFFFFFFFFFF#72 := by decide

theorem witness_OneWordOneEffect :
    (Instr.predictGshare 1#32 2#32 true).wellFormed = true ∧ (Instr.predictCustom 1#32 2#32 true).wellFormed = true ∧
    encode (.predictGshare 1#32 2#32 true) = encode (.predictCustom 1#32 2#32 true) := by decide

theorem witness_StepRunsDecodedInstruction :
    (machine (build 2 5) .uninit [0x1#72, 0x2#72]).inputs = .command 0x1#72 :: [.command 0x2#72] := by decide

theorem witness_ResetAndIdleSteps :
    ({ machine (build 2 5) (gsh [.st] 1) [] with inputs := [.reset, .command 1#72] } : State).inputs =
      .reset :: [.command 1#72] ∧
    (machine (build 2 5) (gsh [.st] 1) []).inputs = [] := by decide

theorem witness_FaultedIgnoresCommands :
    (machine (build 2 5) (.faulted .configError none) []).ctl = .faulted .configError none ∧
    ∃ t, step { machine (build 2 5) (.faulted .configError none) [] with inputs := [.reset] } = .next t ∧
      ({ machine (build 2 5) (.faulted .configError none) [] with inputs := [.reset] } : State).ctlState = .faulted ∧
      t.ctlState ≠ .faulted := ⟨rfl, _, rfl, rfl, by decide⟩

theorem witness_WrongStateTakesProtocolViolation :
    (Instr.initUnknown 9#4).wellFormed = true ∧ opField (encode (.initUnknown 9#4)) = 0#3 ∧
    opField (encode .initStatic) = 0#3 ∧ (machine (build 2 5) (gsh [.st] 1) []).ctl = .ready (.gshare ⟨cells [.st], 1⟩) ∧
    opField (encode (.predictTournament 0#32 0#32 false)) = 1#3 ∧
    opField (encode (.trainNc 0#32 0#32 .taken false false false)) = 2#3 ∧ opField (encode .cleanup) = 3#3 ∧
    (machine (build 2 5) .uninit []).ctl = .uninit := by decide

theorem witness_ReservedOpTakesIllegalCommand :
    (machine (build 2 5) .uninit []).ctlState ≠ .faulted ∧ (machine (build 2 5) (gsh [.st] 1) []).ctlState ≠ .faulted := by
  decide

/-- UNINIT: the premise of `UnknownSchemeTakesConfigError`, of the four statements about INIT and of TRAIN.NC's second
clause. -/
theorem witness_uninit :
    (State.resetOf (build 32 64)).ctl = .uninit ∧ (State.resetOf (build 32 64)).ctlState = .uninit := by decide

/-- Each arm of `FaultPriorityOrder`, at the ends of the reserved OPs and of the unknown selectors. -/
theorem witness_FaultPriorityOrder :
    (machine (build 2 5) (.faulted .configError none) []).ctlState = .faulted ∧
    4 ≤ (opField 0x800000000000000000#72).toNat ∧ 4 ≤ (opField 0xE00000000000000000#72).toNat ∧
    ¬ 4 ≤ (opField 0x600000000000000000#72).toNat ∧
    (opField 0x000000000000000009#72 = 0#3 ∧ (machine (build 2 5) (.ready .static) []).ctlState = .ready) ∧
    (opField 0x600000000000000000#72 ≠ 0#3 ∧ (machine (build 2 5) .uninit []).ctlState = .uninit) ∧
    3 < (schemeSelField 0x000000000000000004#72).toNat ∧ ¬ 3 < (schemeSelField 0x000000000000000003#72).toNat := by decide

theorem witness_FaultEntryIsPrecise :
    ∃ t, exec .initStatic (machine (build 2 5) (gsh [.st] 1) []) = .next t ∧
      (machine (build 2 5) (gsh [.st] 1) []).ctlState ≠ .faulted ∧ t.ctlState = .faulted := ⟨_, rfl, by decide, rfl⟩

theorem witness_InvariantViolationUnreachable :
    ∃ t, step (machine (build 2 5) (.faulted .invariantViolation none) [0x1#72]) = .next t ∧
      t.faultCode = some .invariantViolation := ⟨_, rfl, rfl⟩

/-- One step for each arm of `ControlFsmTransitions`. -/
theorem witness_ControlFsmTransitions :
    (∃ t, step (machine (build 2 5) (.ready .static) []) = .next t) ∧
    (∃ t, step { machine (build 2 5) (.ready .static) [] with inputs := [.reset] } = .next t) ∧
    (∃ t, step (machine (build 2 5) (.faulted .configError none) [0x1#72]) = .next t) ∧
    (∃ t, step (machine (build 2 5) .uninit [0x4#72]) = .next t) ∧
    (∃ t, step (machine (build 2 5) (.ready .static) [0x600000000000000000#72]) = .next t) :=
  ⟨⟨_, rfl⟩, ⟨_, rfl⟩, ⟨_, rfl⟩, ⟨_, rfl⟩, ⟨_, rfl⟩⟩

theorem witness_ResponseShowsFaultState :
    ∃ t, exec (.reserved 4#3) (machine (build 2 5) .uninit []) = .next t ∧ t.ctlState = .faulted := ⟨_, rfl, rfl⟩

/-- A TRAIN, and a PREDICT in FAULTED. -/
theorem witness_NoPredictionOutsidePredict :
    (∃ t r, exec (.trainNc 0#32 0#32 .taken false false false) (machine (build 2 5) (.ready .static) []) = .next t ∧
      t.resp = some r ∧ opField (encode (.trainNc 0#32 0#32 .taken false false false)) ≠ 1#3) ∧
    (∃ t r, exec (.predictStatic 0#32 0#32 false) (machine (build 2 5) (.faulted .configError none) []) = .next t ∧
      t.resp = some r ∧ t.ctlState = .faulted) := ⟨⟨_, _, rfl, rfl, by decide⟩, ⟨_, _, rfl, rfl, rfl⟩⟩

theorem witness_FaultedUntilReset :
    (machine (build 2 5) (.faulted .illegalCommand (some .static)) [0x1#72, 0x600000000000000000#72]).ctl =
      .faulted .illegalCommand (some .static) ∧
    (machine (build 2 5) (.faulted .illegalCommand (some .static)) [0x1#72, 0x600000000000000000#72]).inputs =
      [0x1#72, 0x600000000000000000#72].map .command ++ [] := by decide

theorem witness_WellFormedStateIsKept :
    (machine (build 2 5) (.ready (.tournament tour24)) [0x430000000000000004#72]).wf = true ∧
    (machine (build 2 5) (.ready (.custom cust34)) [0x430000000000000006#72]).wf = true ∧
    ∃ t, step (machine (build 2 5) (.ready (.custom cust34)) [0x430000000000000006#72]) = .next t :=
  ⟨by decide, by decide, _, rfl⟩

theorem witness_OnlyConditionalTrainWritesSchemeState :
    ∃ t a', step (machine (build 2 5) (gsh [.wn] 0) [0x43000000000000000A#72]) = .next t ∧
      (machine (build 2 5) (gsh [.wn] 0) [0x43000000000000000A#72]).ctl = .ready (.gshare ⟨[], 0⟩) ∧ t.ctl = .ready a' ∧
      a' ≠ .gshare ⟨[], 0⟩ := ⟨_, _, rfl, rfl, rfl, by decide⟩

/-- Two machines with different blocks before a reset, and before a CLEANUP. -/
theorem witness_NothingPersists :
    (machine (build 2 5) (gsh [.st] 1) [0x600000000000000000#72]).ctl ≠
      (machine (build 2 5) (.ready (.tournament tour24)) [0x600000000000000000#72]).ctl ∧
    (machine (build 2 5) (gsh [.st] 1) [0x600000000000000000#72]).ctlState = .ready ∧
    (machine (build 2 5) (.ready (.tournament tour24)) [0x600000000000000000#72]).ctlState = .ready ∧
    opField 0x600000000000000000#72 = 3#3 ∧
    (machine (build 2 5) (gsh [.st] 1) [0x600000000000000000#72]).inputs = .command 0x600000000000000000#72 :: [] ∧
    ({ machine (build 2 5) (gsh [.st] 1) [] with inputs := [.reset] } : State).inputs = .reset :: [] := by decide

/-- READY: the premise of the statements about CLEANUP and TRAIN.NC (whose other premise is UNINIT), and in each scheme those about PREDICT and TRAIN. -/
theorem witness_ready :
    (machine (build 2 5) (.ready .static) []).ctl = .ready .static ∧
    (machine (build 2 5) (gsh [.st] 1) []).ctl = .ready (.gshare ⟨cells [.st], 1⟩) ∧
    (machine (build 2 5) (.ready (.tournament tour24)) []).ctl = .ready (.tournament tour24) ∧
    (machine (build 2 5) (.ready (.custom cust34)) []).ctl = .ready (.custom cust34) := by decide

theorem witness_BootReachesReady :
    ({ machine (build 2 5) (gsh [.st] 1) [] with inputs := [.reset, .command 0x3#72] } : State).inputs =
      .reset :: .command 0x3#72 :: [] ∧
    opField 0x3#72 = 0#3 ∧ (schemeSelField 0x3#72).toNat ≤ 3 ∧ (schemeSelField 0x0#72).toNat ≤ 3 := by decide

/-- A run that stands in READY, with the CLEANUP that is to end it. -/
theorem witness_CleanupReleasesEverything :
    ∃ t, runOf (machine (build 2 5) .uninit []) [some 0x1#72, none] = some t ∧ t.ctlState = .ready ∧
      opField 0x600000000000000000#72 = 3#3 := ⟨_, rfl, rfl, by decide⟩

/-- A run with a command, and one without. -/
theorem witness_RunsEndWellWrongOrUnfinished :
    (∃ w : CmdWord, some w ∈ ([some 0x1#72, none] : Script)) ∧ ¬ ∃ w : CmdWord, some w ∈ ([none] : Script) := by simp

theorem witness_OrderingDutyPairsTrainWithPredict :
    keepsOrder none ([.command 0x20000000000000000A#72] ++ .command 0x43000000000000000A#72 :: []) = true ∧
    isConditionalTrainWord 0x43000000000000000A#72 = true := by decide

theorem witness_PredictIsPureRead :
    ∃ t, (Instr.predictTournament 4#32 0#32 false).wellFormed = true ∧
      opField (encode (.predictTournament 4#32 0#32 false)) = 1#3 ∧
      (machine (build 2 5) (.ready (.tournament tour24)) []).ctlState = .ready ∧
      exec (.predictTournament 4#32 0#32 false) (machine (build 2 5) (.ready (.tournament tour24)) []) = .next t :=
  ⟨_, by decide, by decide, by decide, rfl⟩

/-- The indices of vector 2.4's TRAIN, where the sub-predictions disagree, and of program P2 step 1, where they agree. -/
theorem witness_TrainTournamentUpdates :
    0 = (4#32).toNat &&& mask (build 2 5).tP.bits ∧ 3 = historyAt tour24.lht 0 &&& mask (build 2 5).tL.bits ∧
    1 = tour24.phr &&& mask (build 2 5).tGp.bits ∧ 1 = tour24.phr &&& mask (build 2 5).tC.bits ∧
    (cellOfCode (cellAt tour24.localTbl 3)).map dir = some .taken ∧
    (cellOfCode (cellAt tour24.globalTbl 1)).map dir = some .notTaken ∧
    (cellOfCode (cellAt hybridSeed.localTbl 0)).map dir = (cellOfCode (cellAt hybridSeed.globalTbl 0)).map dir := by decide

/-- The indices of program P3 step 5, where the sub-predictions disagree; at step 1 they agree. -/
theorem witness_TrainCustomUpdates :
    0 = (6#32).toNat &&& mask (build 2 5).xP.bits ∧ 2 = historyAt cust34.lht 0 &&& mask (build 2 5).xL.bits ∧
    0 = fold cust34.phr (build 2 5).xH.bits (build 2 5).xW.bits ^^^ ((6#32).toNat &&& mask (build 2 5).xW.bits) ∧
    2 = fold cust34.phr (build 2 5).xH.bits (build 2 5).xC.bits ∧
    (cellOfCode (cellAt cust34.localTbl 2)).map dir = some .notTaken ∧
    (cellOfCode (cellAt cust34.globalTbl 0)).map dir = some .taken := by decide

theorem witness_QuietCommandsKeepTheBlock :
    (machine (build 2 5) (gsh [.st] 1) [0x200000000000000001#72, 0x510000100000000040#72]).ctlState = .ready ∧
    (∀ w ∈ [0x200000000000000001#72, 0x510000100000000040#72], isQuietWord w = true) ∧
    (machine (build 2 5) (gsh [.st] 1) [0x200000000000000001#72, 0x510000100000000040#72]).inputs =
      [0x200000000000000001#72, 0x510000100000000040#72].map .command ++ [] :=
  ⟨by decide, List.all_eq_true.mp (by decide), by decide⟩

theorem witness_TrainStepsTheCellPredictRead :
    opField 0x20000000000000000A#72 = 1#3 ∧ isConditionalTrainWord 0x43000000000000000A#72 = true ∧
    pcField 0x43000000000000000A#72 = pcField 0x20000000000000000A#72 ∧
    (∀ w ∈ [0x510000100000000040#72], isQuietWord w = true) ∧
    (machine (build 2 5) (gsh [.st] 1)
      [0x20000000000000000A#72, 0x510000100000000040#72, 0x43000000000000000A#72]).inputs =
      (0x20000000000000000A#72 :: [0x510000100000000040#72] ++ [0x43000000000000000A#72]).map .command ++ [] :=
  ⟨by decide, by decide, by decide, List.all_eq_true.mp (by decide), by decide⟩

/-- The widths and lengths of the statements about histories and the fold, at their ends. -/
theorem witness_widths :
    (2 : Nat) < 3 ∧ (3 : Nat) ≤ 3 ∧ (1 : Nat) ≤ 1 ∧ 0b10110110 < 2 ^ 8 ∧ (3 : Nat) ≤ 5 ∧ 0b101 < 2 ^ 3 := by decide

theorem witness_CustomIndicesAtTheBoundary :
    (build 3 2).xH.bits = (build 3 2).xW.bits ∧ (build 3 3).xH.bits = (build 3 3).xC.bits := by decide

end Sys2Proof.Tests
end

section
/-! The scope of a step (spec 00_scope): every step comes to a next state, a command is answered exactly once, and the
codes of the coded registers. -/

namespace Sys2Proof.Machine

/-- Whatever an instruction does to the block, it leaves a response at the port (R90). -/
theorem Effect.answers {s t : State} (h : Effect s t) : t.resp ≠ none := by
  cases h <;> simp

/-- Settles O19: by the three kinds of step, with the frame and the answer of an instruction's effect. -/
theorem everyStepAnswers : Obligations.EveryStepAnswers := by
  intro s
  obtain ⟨t, hstep, ⟨hin, rfl⟩ | ⟨rest, hin, rfl⟩ | ⟨w, rest, hin, -, heff⟩⟩ := step_effect s
  · exact ⟨_, hstep, rfl, by simp [hin], by simp [hin]⟩
  · exact ⟨_, hstep, rfl, by simp [hin], by simp [hin]⟩
  · obtain ⟨hcfg, hrest⟩ := heff.frame
    exact ⟨t, hstep, hcfg, by simp [hin, hrest], by simp [hin, heff.answers]⟩

/-- Settles O9: what a step does with a command word. -/
theorem stepRunsDecodedInstruction : Obligations.StepRunsDecodedInstruction :=
  fun _ _ _ hin => step_command hin

/-- Settles O59: each code is a literal of the model, so each part is an evaluation. -/
theorem codesAreTheSpecsNumbers : Obligations.CodesAreTheSpecsNumbers := by
  unfold Obligations.CodesAreTheSpecsNumbers
  decide

end Sys2Proof.Machine
end

section
/-! The state registers (spec 10_state): what a step can do to the fault code, to the well-formedness of the state and
to the scheme state of a READY block, what the response shows of it, and the state after reset. -/

namespace Sys2Proof.Machine

/-! What one step can do, as an inversion. -/

/-- The next state of a step is that of an idle step, of a reset, or of the decoded instruction's effect. -/
theorem step_inv {s t : State} (h : step s = .next t) :
    t = s.hold ∨ (∃ rest, t = State.hardwareReset { s with inputs := rest }) ∨
      ∃ w rest, s.inputs = .command w :: rest ∧ exec (decode s.scheme w) { s with inputs := rest } = .next t ∧
        Effect { s with inputs := rest } t := by
  obtain ⟨t', h', hcases⟩ := step_effect s
  rw [h] at h'; cases h'
  rcases hcases with ⟨-, ht⟩ | ⟨rest, -, ht⟩ | ⟨w, rest, hin, hexec, heff⟩
  · exact .inl ht
  · exact .inr (.inl ⟨rest, ht⟩)
  · exact .inr (.inr ⟨w, rest, hin, hexec, heff⟩)

/-! INVARIANT_VIOLATION (R107, R232). -/

/-- An instruction leaves INVARIANT_VIOLATION only where it found it: a fault taken has another code. -/
theorem Effect.invariantViolation_kept {s t : State} (h : Effect s t) (ht : t.faultCode = some .invariantViolation) :
    s.faultCode = some .invariantViolation := by
  cases h with
  | ignored _ => exact ht
  | raised _ hc => exact absurd (Option.some.inj ht) hc
  | seeded _ _ => cases ht
  | answered _ _ => exact ht
  | trained _ _ => cases ht
  | released _ => cases ht

/-- Settles O18: an idle step keeps the code, a reset clears it, and no instruction's effect brings this one about. -/
theorem invariantViolationUnreachable : Obligations.InvariantViolationUnreachable := by
  intro s t hstep ht
  rcases step_inv hstep with rfl | ⟨rest, rfl⟩ | ⟨w, rest, -, -, heff⟩
  · exact ht
  · cases ht
  · exact heff.invariantViolation_kept ht

/-! Well-formed states (R27 to R31, R60, R61). -/

/-- Well-formedness looks at the block and the build alone. -/
theorem wf_congr {s t : State} (hcfg : t.cfg = s.cfg) (hctl : t.ctl = s.ctl) : t.wf = s.wf := by
  simp only [State.wf, State.active, hcfg, hctl]

/-- A block in UNINIT has no scheme state that could be ill formed. -/
theorem wf_of_uninit {s : State} (h : s.ctl = .uninit) : s.wf = true := by
  simp [State.wf, (views_of_uninit h).2.2.1]

/-- A READY block is well formed exactly if its scheme state fits the build. -/
theorem wf_of_ready {s : State} {a : SchemeState} (h : s.ctl = .ready a) : s.wf = a.wf s.cfg := by
  simp [State.wf, (views_of_ready h).2.2.1]

/-- A fault leaves the scheme state as it was, so it leaves it well formed (R237). -/
@[simp] theorem wf_raise (s : State) (c : Cause) : (s.raise c).wf = s.wf := rfl

/-- What INIT seeds fits every build: the tables list nothing and the histories are 0. -/
theorem IsSeed.wf {a : SchemeState} (h : IsSeed a) (p : Config.Params) : a.wf p = true := by
  rcases h with rfl | rfl | rfl | rfl
  · rfl
  · simp [SchemeState.wf, GshareState.wf, gshareSeed, counterTableWf_nil]
  · simp [SchemeState.wf, tournamentWf, tournamentSeed, hybridSeed, counterTableWf_nil, historyTableWf_nil]
  · simp [SchemeState.wf, customWf, customSeed, hybridSeed, counterTableWf_nil, historyTableWf_nil]

/-- Whatever an instruction does to the block, it keeps it well formed. -/
theorem Effect.wf {s t : State} (h : Effect s t) (hs : s.wf = true) : t.wf = true := by
  cases h with
  | ignored _ => exact (wf_congr (ignore_cfg s) (ignore_ctl s)).trans hs
  | raised _ _ => exact (wf_raise s _).trans hs
  | seeded _ ha => exact (wf_of_ready (becomeReady_ctl s _)).trans (ha.wf s.cfg)
  | answered d _ => exact (wf_congr (respond_cfg s d) (respond_ctl s d)).trans hs
  | trained hready htrained =>
    exact (wf_of_ready (becomeReady_ctl s _)).trans (htrained.wf ((wf_of_ready hready).symm.trans hs))
  | released _ => exact wf_of_uninit (release_ctl s)

/-- Settles O24: an idle step keeps the block, a reset empties it, and every instruction keeps it well formed. -/
theorem wellFormedStateIsKept : Obligations.WellFormedStateIsKept := by
  intro s t hs hstep
  rcases step_inv hstep with rfl | ⟨rest, rfl⟩ | ⟨w, rest, -, -, heff⟩
  · exact (wf_congr (hold_cfg s) (hold_ctl s)).trans hs
  · exact wf_of_uninit (hardwareReset_ctl _)
  · exact heff.wf ((wf_congr rfl rfl).trans hs)

/-- Settles O25: the state after reset is in UNINIT. -/
theorem resetStateIsWellFormed : Obligations.ResetStateIsWellFormed :=
  ⟨wf_of_uninit (resetOf_fields _).2.1, fun p => wf_of_uninit (resetOf_fields p).2.1⟩

/-! The response (R24, R90). -/

/-- FAULT is 1 exactly if the code is not NONE (R24). -/
theorem faultFlag_iff_faultCode (s : State) : s.faultFlag = true ↔ s.faultCode ≠ none := by
  rcases hc : s.ctl with _ | a | ⟨c, left⟩
  · obtain ⟨-, -, -, hcode, hflag⟩ := views_of_uninit hc
    simp [hcode, hflag]
  · obtain ⟨-, -, -, hcode, hflag⟩ := views_of_ready hc
    simp [hcode, hflag]
  · obtain ⟨-, -, -, hcode, hflag⟩ := views_of_faulted hc
    simp [hcode, hflag]

/-- An instruction's response is read off the state it leaves, but for the prediction (R90). -/
theorem Effect.resp_eq {s t : State} (h : Effect s t) :
    ∃ pred, t.resp = some { faultCode := t.faultCode, fault := t.faultFlag, pred := pred } := by
  cases h <;> exact ⟨_, rfl⟩

/-- The fields of a response word: the code's number in bits 4:2, FAULT in bit 1, the prediction's bit in bit 0. -/
theorem respWord_fields (r : Response) :
    (respWord r).extractLsb' 2 3 = causeCode r.faultCode ∧ (respWord r).getLsbD 1 = r.fault ∧
      (respWord r).getLsbD 0 = predBit r.pred := by
  unfold respWord
  generalize causeCode r.faultCode = code, r.fault = f, predBit r.pred = p
  revert code f p; decide

/-- The prediction's bit is 1 exactly for Taken (R11, R91). -/
theorem predBit_eq (pred : Option Dir) : predBit pred = decide (pred = some .taken) := by
  rcases pred with _ | _ | _ <;> rfl

/-- Settles O21: the response is the state's view (`Effect.resp_eq`), and its word is read field by field. -/
theorem responseShowsFaultState : Obligations.ResponseShowsFaultState := by
  intro i s t h
  obtain ⟨pred, hresp⟩ := (effect_of_exec h).resp_eq
  obtain ⟨hcode, hfault, hpred⟩ := respWord_fields ⟨t.faultCode, t.faultFlag, pred⟩
  refine ⟨_, hresp, rfl, rfl, faultFlag_iff_faultCode t, ?_, hfault, hpred.trans (predBit_eq pred)⟩
  rw [hcode]
  rcases t.faultCode with _ | _ | _ | _ | _ <;> rfl

end Sys2Proof.Machine

/-! What writes the scheme state (R22, R66, R108, R210). -/

namespace Sys2Proof

/-- TRAIN with IS_CONDITIONAL = 1, in any mode. -/
def Instr.isConditionalTrain : Instr → Bool
  | .trainStatic .. | .trainGshare .. | .trainTournament .. | .trainCustom .. => true
  | .initStatic | .initGshare | .initTournament | .initCustom | .initUnknown _ => false
  | .predictStatic .. | .predictGshare .. | .predictTournament .. | .predictCustom .. => false
  | .trainNc .. | .cleanup | .reserved _ => false

theorem decodeInit_not_conditionalTrain (sel : BitVec 4) : (decodeInit sel).isConditionalTrain = false := by
  unfold decodeInit; split <;> rfl

theorem decodePredict_not_conditionalTrain (mode : Scheme) (w : CmdWord) :
    (decodePredict mode w).isConditionalTrain = false := by
  cases mode <;> rfl

theorem decodeTrain_isConditionalTrain (mode : Scheme) (w : CmdWord) :
    (decodeTrain mode w).isConditionalTrain = isConditionalField w := by
  unfold decodeTrain
  split
  · rename_i hc; rw [hc]; cases mode <;> rfl
  · rename_i hc; exact (Bool.eq_false_iff.mpr hc).symm

/-- Only a TRAIN word with IS_CONDITIONAL = 1 decodes to a conditional TRAIN (R87). -/
theorem isConditionalTrainWord_of_decode {scheme : Option Scheme} {w : CmdWord}
    (h : (decode scheme w).isConditionalTrain = true) : Machine.isConditionalTrainWord w = true := by
  unfold decode at h
  split at h
  · simp [decodeInit_not_conditionalTrain] at h
  · simp [decodePredict_not_conditionalTrain] at h
  · rename_i hop
    rw [decodeTrain_isConditionalTrain] at h
    have hop : opField w = 2#3 := BitVec.eq_of_toNat_eq hop
    simp [Machine.isConditionalTrainWord, hop, h]
  · cases h
  · cases h

end Sys2Proof

namespace Sys2Proof.Machine

/-- From READY to READY an instruction leaves the scheme state or trains it. -/
theorem Effect.unchanged_or_trained {s t : State} {a a' : SchemeState} (h : Effect s t) (hs : s.ctl = .ready a)
    (ht : t.ctl = .ready a') : a' = a ∨ Trained s.cfg a a' := by
  cases h with
  | ignored _ => exact .inl (Ctl.ready.inj (ht.symm.trans hs))
  | raised _ _ => cases ht
  | seeded huninit _ => simp [(views_of_ready hs).1] at huninit
  | answered _ _ => exact .inl (Ctl.ready.inj (ht.symm.trans hs))
  | trained hready htrained =>
    obtain rfl := Ctl.ready.inj (hs.symm.trans hready)
    cases ht; exact .inr htrained
  | released _ => cases ht

section ReadyFrame
variable {s t : State} {a a' : SchemeState} (hs : s.ctl = .ready a)
include hs

/-- An INIT in READY does not come to READY (R216). -/
theorem whenUninit_leaves_ready {run : StepResult} (h : s.whenUninit run = .next t) : t.ctl ≠ .ready a' := by
  rw [whenUninit_ready hs] at h; cases h; nofun

/-- A PREDICT in READY changes nothing but the response (R66). -/
theorem predict_keeps_ctl {pc : Addr} {r : StepResult} (hr : r = s.whenReady (s.dispatchPredict pc))
    (h : r = .next t) : t.ctl = s.ctl := by
  obtain ⟨d, hd⟩ := dispatchPredict_next s pc a
  rw [hr, whenReady_ready hs, hd] at h; cases h; rfl

/-- From READY to READY, no instruction but a conditional TRAIN changes the scheme state. -/
theorem exec_keeps_schemeState {i : Instr} (hi : i.isConditionalTrain = false) (h : exec i s = .next t)
    (ht : t.ctl = .ready a') : a' = a := by
  have of_ctl (hctl : t.ctl = s.ctl) : a' = a := Ctl.ready.inj (ht.symm.trans (hctl.trans hs))
  cases i with
  | initStatic | initGshare | initTournament | initCustom | initUnknown _ =>
    exact absurd ht (whenUninit_leaves_ready hs h)
  | predictStatic pc target d => exact of_ctl (predict_keeps_ctl hs (execPredictStatic_eq pc target d s) h)
  | predictGshare pc target d => exact of_ctl (predict_keeps_ctl hs (execPredictGshare_eq pc target d s) h)
  | predictTournament pc target d => exact of_ctl (predict_keeps_ctl hs (execPredictTournament_eq pc target d s) h)
  | predictCustom pc target d => exact of_ctl (predict_keeps_ctl hs (execPredictCustom_eq pc target d s) h)
  | trainNc pc target o c r d =>
    have heq : exec (.trainNc pc target o c r d) s = .next (s.respond none) := whenReady_ready hs _
    rw [heq] at h; cases h; exact of_ctl rfl
  | trainStatic | trainGshare | trainTournament | trainCustom => cases hi
  | cleanup =>
    have heq : exec .cleanup s = .next s.release := whenReady_ready hs _
    rw [heq] at h; cases h; cases ht
  | reserved op =>
    have heq : exec (.reserved op) s = .next (s.raise .illegalCommand) :=
      unlessFaulted_else (by simp [(views_of_ready hs).1]) _
    rw [heq] at h; cases h; cases ht

end ReadyFrame

/-- Settles O26: an idle step keeps the block and a reset leaves READY; an instruction from READY to READY at most
trains (`Effect.unchanged_or_trained`), and only a conditional TRAIN does so (`exec_keeps_schemeState`). -/
theorem onlyConditionalTrainWritesSchemeState : Obligations.OnlyConditionalTrainWritesSchemeState := by
  intro s t a a' hstep hs ht
  rcases step_inv hstep with rfl | ⟨rest, rfl⟩ | ⟨w, rest, hin, hexec, heff⟩
  · obtain rfl : a' = a := Ctl.ready.inj (ht.symm.trans hs)
    exact ⟨rfl, fun hne => absurd rfl hne⟩
  · cases ht
  · constructor
    · rcases heff.unchanged_or_trained hs ht with rfl | htrained
      · rfl
      · exact htrained.schemeOf_eq
    · intro hne
      refine ⟨w, rest, hin, isConditionalTrainWord_of_decode (scheme := s.scheme) ?_⟩
      by_contra hi
      exact hne (exec_keeps_schemeState (s := { s with inputs := rest }) hs (Bool.eq_false_iff.mpr hi) hexec ht)

/-! The state after reset (R41, R260). -/

/-- Settles O11: the state after reset is in UNINIT, where no view holds a value. -/
theorem resetStateHoldsNoValue : Obligations.ResetStateHoldsNoValue := by
  refine ⟨rfl, rfl, rfl, rfl, fun p => ?_⟩
  obtain ⟨hcfg, hctl, -, -⟩ := resetOf_fields p
  obtain ⟨hstate, hscheme, hactive, hcode, -⟩ := views_of_uninit hctl
  exact ⟨hstate, by rw [hstate]; rfl, by rw [hcode]; rfl, hscheme, hactive, hcfg⟩

end Sys2Proof.Machine
end

section
/-! PREDICT is a pure read (spec 20_memory R66): what a PREDICT in READY comes to, whatever row its word is read by, and
runs of commands that change no table and no history. -/

namespace Sys2Proof

/-- The branch a PREDICT asks about, in any mode; none for the other instructions. -/
def Instr.predictPc : Instr → Option Addr
  | .predictStatic pc .. | .predictGshare pc .. | .predictTournament pc .. | .predictCustom pc .. => some pc
  | .initStatic | .initGshare | .initTournament | .initCustom | .initUnknown _ => none
  | .trainNc .. | .trainStatic .. | .trainGshare .. | .trainTournament .. | .trainCustom .. => none
  | .cleanup | .reserved _ => none

/-- A well-formed instruction with the OP code of format P is a PREDICT; RESERVED with OP 1 is not well formed (R83). -/
theorem predictPc_of_opField_encode {i : Instr} (hwf : i.wellFormed = true) (hop : opField (encode i) = 1#3) :
    ∃ pc, i.predictPc = some pc := by
  cases i with
  | predictStatic pc | predictGshare pc | predictTournament pc | predictCustom pc => exact ⟨pc, rfl⟩
  | initStatic | initGshare | initTournament | initCustom | initUnknown =>
    exact absurd ((opField_packWord ..).symm.trans hop) (by decide)
  | trainNc | trainStatic | trainGshare | trainTournament | trainCustom | cleanup =>
    exact absurd ((opField_packWord ..).symm.trans hop) (by decide)
  | reserved op =>
    obtain rfl : op = 1#3 := (opField_packWord ..).symm.trans hop
    cases hwf

/-- A PREDICT word asks about the branch of its PC field, whatever the mode it is read in (R87). -/
theorem decode_predictPc (scheme : Option Scheme) {w : CmdWord} (hw : opField w = 1#3) :
    (decode scheme w).predictPc = some (pcField w) := by
  have hdecode : decode scheme w = decodePredict (readingMode scheme) w := by simp [decode, hw]
  rw [hdecode]; cases readingMode scheme <;> rfl

/-- A TRAIN word with IS_CONDITIONAL = 0 is TRAIN.NC in every mode (R87). -/
theorem decode_trainNc (scheme : Option Scheme) {w : CmdWord} (hw : opField w = 2#3)
    (hc : isConditionalField w = false) : decode scheme w =
      .trainNc (pcField w) (targetField w) (outcomeField w) (isCallField w) (isReturnField w) (isDirectField w) := by
  simp [decode, decodeTrain, hw, hc]

end Sys2Proof

namespace Sys2Proof.Machine

/-- A PREDICT does what the active scheme's rule does, whatever its row (R201). -/
theorem exec_of_predictPc {i : Instr} {pc : Addr} (hi : i.predictPc = some pc) (s : State) :
    exec i s = s.whenReady (s.dispatchPredict pc) := by
  cases i with
  | predictStatic pc' t d => cases hi; exact execPredictStatic_eq pc t d s
  | predictGshare pc' t d => cases hi; exact execPredictGshare_eq pc t d s
  | predictTournament pc' t d => cases hi; exact execPredictTournament_eq pc t d s
  | predictCustom pc' t d => cases hi; exact execPredictCustom_eq pc t d s
  | _ => cases hi

/-- A PREDICT in READY answers a direction and does nothing else (R66). -/
theorem exec_predict_ready {i : Instr} {pc : Addr} {s : State} (hi : i.predictPc = some pc)
    (hs : s.ctlState = .ready) : ∃ d, exec i s = .next (s.respond (some d)) := by
  obtain ⟨a, ha⟩ := ctl_of_ready hs
  rw [exec_of_predictPc hi, whenReady_ready ha]
  exact dispatchPredict_next s pc a

/-- A dispatched PREDICT does not look at the response port, which it writes (R90). -/
theorem dispatchPredict_respond (s : State) (d : Option Dir) (pc : Addr) (a : SchemeState) :
    (s.respond d).dispatchPredict pc a = s.dispatchPredict pc a := by
  cases a <;> rfl

/-- A PREDICT comes to the same whatever the last response was. -/
theorem exec_predict_respond {i : Instr} {pc : Addr} (hi : i.predictPc = some pc) (s : State) (d : Option Dir) :
    exec i (s.respond d) = exec i s := by
  rw [exec_of_predictPc hi, exec_of_predictPc hi, funext (dispatchPredict_respond s d pc)]; rfl

/-- What is answered in READY tells of no fault (R90). -/
theorem respond_resp_of_ready {s : State} (hs : s.ctlState = .ready) (d : Option Dir) :
    (s.respond d).resp = some (answer d) := by
  obtain ⟨a, ha⟩ := ctl_of_ready hs
  obtain ⟨-, -, -, hcode, hflag⟩ := views_of_ready ha
  simp [answer, hcode, hflag]

/-- Settles O38: a PREDICT only writes the response port, and it does not read it. -/
theorem predictIsPureRead : Obligations.PredictIsPureRead := by
  intro i s t hwf hop hs hexec
  obtain ⟨pc, hi⟩ := predictPc_of_opField_encode hwf hop
  obtain ⟨d, hd⟩ := exec_predict_ready hi hs
  obtain rfl : s.respond (some d) = t := by rw [hd] at hexec; cases hexec; rfl
  exact ⟨rfl, rfl, rfl, ⟨d, respond_resp_of_ready hs _⟩, (exec_predict_respond hi s _).trans hexec⟩

/-- A quiet word in READY is answered, and nothing else happens (R66, R210). -/
theorem exec_quiet_ready {w : CmdWord} {s : State} (scheme : Option Scheme) (hw : isQuietWord w = true)
    (hs : s.ctlState = .ready) : ∃ d, exec (decode scheme w) s = .next (s.respond d) := by
  simp only [isQuietWord, isPredictWord, Bool.or_eq_true, Bool.and_eq_true, decide_eq_true_eq,
    Bool.not_eq_true'] at hw
  rcases hw with hop | ⟨hop, hc⟩
  · obtain ⟨d, hd⟩ := exec_predict_ready (decode_predictPc scheme hop) hs
    exact ⟨some d, hd⟩
  · obtain ⟨a, ha⟩ := ctl_of_ready hs
    rw [decode_trainNc scheme hop hc]
    exact ⟨none, whenReady_ready ha _⟩

/-- A step with a quiet word in READY takes the word and keeps the block. -/
theorem step_quiet_ready {w : CmdWord} {s : State} {rest : List HostEvent} (hw : isQuietWord w = true)
    (hs : s.ctlState = .ready) (hin : s.inputs = .command w :: rest) :
    ∃ t, step s = .next t ∧ t.ctl = s.ctl ∧ t.cfg = s.cfg ∧ t.inputs = rest := by
  obtain ⟨d, hd⟩ := exec_quiet_ready (s := { s with inputs := rest }) s.scheme hw hs
  exact ⟨_, (step_command hin).trans hd, rfl, rfl, rfl⟩

/-- Settles O44: by induction over the words, each of whose steps keeps the block (`step_quiet_ready`). -/
theorem quietCommandsKeepTheBlock : Obligations.QuietCommandsKeepTheBlock := by
  intro ws
  induction ws with
  | nil => exact fun s rest _ _ hin => ⟨s, rfl, rfl, rfl, hin⟩
  | cons w ws ih =>
    intro s rest hs hquiet hin
    obtain ⟨hw, hws⟩ := List.forall_mem_cons.mp hquiet
    obtain ⟨u, hstep, huctl, hucfg, huin⟩ := step_quiet_ready hw hs hin
    have hu : u.ctlState = .ready := by rw [State.ctlState, huctl]; exact hs
    obtain ⟨t, hrun, htctl, htcfg, htin⟩ := ih u rest hu hws huin
    exact ⟨t, (run_succ ws.length hstep).trans hrun, htctl.trans huctl, htcfg.trans hucfg, htin⟩

end Sys2Proof.Machine
end

section
/-! Encoding (spec 30_encoding): a command word is its fields, the decoder by OP, the round trips, the opcode table, what
a word does whatever its unused bits and its mode, and which responses hold no prediction. -/

namespace Sys2Proof

/-! A word is its fields (R80). -/

/-- Packing the fields of a word gives the word. -/
theorem packWord_fields (w : CmdWord) : packWord (opField w) (isDirectField w) (isReturnField w) (isCallField w)
    (isConditionalField w) (outcomeField w).toBool (targetField w) (pcField w) = w := by
  apply BitVec.eq_of_getLsbD_eq
  intro k hk
  rw [getLsbD_packWord, outcomeField, toBool_ofBool]
  by_cases hpc : k < 32
  · simp [hpc, pcField]
  by_cases htarget : k < 64
  · simp [hpc, htarget, targetField, show k - 32 < 32 by omega, show 32 + (k - 32) = k by omega]
  by_cases hflags : k < 69
  · obtain rfl | rfl | rfl | rfl | rfl : k = 64 ∨ k = 65 ∨ k = 66 ∨ k = 67 ∨ k = 68 := by omega
    all_goals rfl
  · simp [hpc, htarget, opField, show k ≠ 64 by omega, show k ≠ 65 by omega, show k ≠ 66 by omega,
      show k ≠ 67 by omega, show k ≠ 68 by omega, show k - 69 < 3 by omega, show 69 + (k - 69) = k by omega]

@[simp] theorem opField_and (v w : CmdWord) : opField (v &&& w) = opField v &&& opField w := BitVec.extractLsb'_and

@[simp] theorem schemeSelField_and (v w : CmdWord) :
    schemeSelField (v &&& w) = schemeSelField v &&& schemeSelField w := BitVec.extractLsb'_and

@[simp] theorem targetField_and (v w : CmdWord) : targetField (v &&& w) = targetField v &&& targetField w :=
  BitVec.extractLsb'_and

@[simp] theorem pcField_and (v w : CmdWord) : pcField (v &&& w) = pcField v &&& pcField w := BitVec.extractLsb'_and

/-- A mask acts on each field by itself. -/
theorem and_packWord (w : CmdWord) (op : BitVec 3) (d r c n o : Bool) (target pc : Addr) :
    w &&& packWord op d r c n o target pc = packWord (opField w &&& op) (isDirectField w && d) (isReturnField w && r)
      (isCallField w && c) (isConditionalField w && n) ((outcomeField w).toBool && o) (targetField w &&& target)
      (pcField w &&& pc) := by
  apply BitVec.eq_of_getLsbD_eq
  intro k hk
  conv_lhs => rw [← packWord_fields w]
  simp only [BitVec.getLsbD_and, getLsbD_packWord]
  repeat' split
  all_goals rfl

/-- The selector's mask keeps the selector alone of the PC field it overlays (R82). -/
theorem pcField_and_selMask (w : CmdWord) :
    pcField w &&& (BitVec.allOnes 4).setWidth 32 = (schemeSelField w).setWidth 32 := by
  apply BitVec.eq_of_getLsbD_eq
  intro k hk
  by_cases hsel : k < 4 <;> simp [pcField, schemeSelField, hk, hsel, -BitVec.reduceAllOnes]

/-! The decoder by OP (R87). -/

/-- OP is one of the four commands' codes or reserved (R89). -/
theorem opField_cases (w : CmdWord) :
    opField w = 0#3 ∨ opField w = 1#3 ∨ opField w = 2#3 ∨ opField w = 3#3 ∨ 4 ≤ (opField w).toNat := by
  generalize opField w = op
  revert op; decide

section ByOp
variable (scheme : Option Scheme) {w : CmdWord}

theorem decode_init (hop : opField w = 0#3) : decode scheme w = decodeInit (schemeSelField w) := by
  simp [decode, hop]

theorem decode_predict (hop : opField w = 1#3) : decode scheme w = decodePredict (readingMode scheme) w := by
  simp [decode, hop]

theorem decode_train (hop : opField w = 2#3) : decode scheme w = decodeTrain (readingMode scheme) w := by
  simp [decode, hop]

theorem decode_cleanup (hop : opField w = 3#3) : decode scheme w = .cleanup := by simp [decode, hop]

theorem decode_reserved (hop : 4 ≤ (opField w).toNat) : decode scheme w = .reserved (opField w) := by
  unfold decode
  split
  case h_5 => rfl
  all_goals omega

end ByOp

theorem decodeInit_unknown {sel : BitVec 4} (hsel : 4 ≤ sel.toNat) : decodeInit sel = .initUnknown sel := by
  revert sel; decide

/-! What the decoder's parts give: a well-formed row of the mode, with the word's fields for operands. -/

theorem decodeInit_wellFormed_rowMode (sel : BitVec 4) :
    (decodeInit sel).wellFormed = true ∧ (decodeInit sel).rowMode = none := by
  revert sel; decide

theorem decodePredict_wellFormed_rowMode (mode : Scheme) (w : CmdWord) :
    (decodePredict mode w).wellFormed = true ∧ (decodePredict mode w).rowMode = some mode := by
  cases mode <;> exact ⟨rfl, rfl⟩

theorem decodeTrain_wellFormed_rowMode (mode : Scheme) (w : CmdWord) : (decodeTrain mode w).wellFormed = true ∧
    ((decodeTrain mode w).rowMode = none ∨ (decodeTrain mode w).rowMode = some mode) := by
  unfold decodeTrain
  split
  · cases mode <;> exact ⟨rfl, .inr rfl⟩
  · exact ⟨rfl, .inl rfl⟩

theorem encode_decodeInit (sel : BitVec 4) : encode (decodeInit sel) = packInit sel := by
  revert sel; decide

theorem encode_decodePredict (mode : Scheme) (w : CmdWord) :
    encode (decodePredict mode w) = packPredict (pcField w) (targetField w) (isDirectField w) := by
  cases mode <;> rfl

theorem encode_decodeTrain (mode : Scheme) (w : CmdWord) : encode (decodeTrain mode w) =
    packTrain (isConditionalField w) (pcField w) (targetField w) (outcomeField w) (isCallField w) (isReturnField w)
      (isDirectField w) := by
  unfold decodeTrain
  split
  · rename_i hc; rw [hc]; cases mode <;> rfl
  · rename_i hc; rw [Bool.eq_false_iff.mpr hc]; rfl

/-! Decode of encode. -/

theorem readIn_of_rowMode_none {i : Instr} (scheme : Option Scheme) (h : i.rowMode = none) :
    i.readIn scheme = true := by
  simp [Instr.readIn, h]

theorem readIn_iff {i : Instr} {scheme : Option Scheme} {m : Scheme} (h : i.rowMode = some m) :
    i.readIn scheme = true ↔ m = readingMode scheme := by
  simp [Instr.readIn, h]

theorem decode_packInit (scheme : Option Scheme) (sel : BitVec 4) : decode scheme (packInit sel) = decodeInit sel := by
  rw [decode_init scheme (opField_packInit sel), schemeSelField_packInit]

theorem decode_packPredict (scheme : Option Scheme) (pc target : Addr) (d : Bool) :
    decode scheme (packPredict pc target d) = decodePredict (readingMode scheme) (packPredict pc target d) :=
  decode_predict scheme (opField_packWord ..)

theorem decode_packTrain (scheme : Option Scheme) (n : Bool) (pc target : Addr) (o : Dir) (c r d : Bool) :
    decode scheme (packTrain n pc target o c r d) = decodeTrain (readingMode scheme) (packTrain n pc target o c r d) :=
  decode_train scheme (opField_packWord ..)

/-- Settles O2: the packed word's OP selects the decoder's part, and its fields are the instruction's operands. -/
theorem decodeOfEncode : Obligations.DecodeOfEncode := by
  intro scheme i hwf hread
  cases i with
  | initStatic | initGshare | initTournament | initCustom => exact decode_packInit scheme _
  | initUnknown sel => exact (decode_packInit scheme sel).trans (decodeInit_unknown (of_decide_eq_true hwf))
  | predictStatic | predictGshare | predictTournament | predictCustom =>
    rw [encode, decode_packPredict, ← (readIn_iff rfl).mp hread]
    simp [decodePredict, packPredict]
  | trainNc =>
    rw [encode, decode_packTrain]
    simp [decodeTrain, packTrain]
  | trainStatic | trainGshare | trainTournament | trainCustom =>
    rw [encode, decode_packTrain, ← (readIn_iff rfl).mp hread]
    simp [decodeTrain, packTrain]
  | cleanup => exact decode_cleanup scheme (opField_packWord ..)
  | reserved op =>
    have hop : opField (encode (.reserved op)) = op := opField_packWord ..
    rw [decode_reserved scheme (hop.symm ▸ of_decide_eq_true hwf), hop]

/-! Encode of decode. -/

/-- Settles O4: each part of the decoder gives a well-formed row of the mode it was given. -/
theorem decodedIsWellFormed : Obligations.DecodedIsWellFormed := by
  intro scheme w
  rcases opField_cases w with hop | hop | hop | hop | hop
  · rw [decode_init scheme hop]
    obtain ⟨hwf, hrow⟩ := decodeInit_wellFormed_rowMode (schemeSelField w)
    exact ⟨hwf, readIn_of_rowMode_none scheme hrow⟩
  · rw [decode_predict scheme hop]
    obtain ⟨hwf, hrow⟩ := decodePredict_wellFormed_rowMode (readingMode scheme) w
    exact ⟨hwf, (readIn_iff hrow).mpr rfl⟩
  · rw [decode_train scheme hop]
    obtain ⟨hwf, hrow | hrow⟩ := decodeTrain_wellFormed_rowMode (readingMode scheme) w
    · exact ⟨hwf, readIn_of_rowMode_none scheme hrow⟩
    · exact ⟨hwf, (readIn_iff hrow).mpr rfl⟩
  · rw [decode_cleanup scheme hop]; exact ⟨rfl, rfl⟩
  · rw [decode_reserved scheme hop]; exact ⟨decide_eq_true hop, rfl⟩

/-- The carried bits of each format, by field (R82 to R85). -/
theorem carriedBits_of_init {w : CmdWord} (hop : opField w = 0#3) : carriedBits w =
    packWord (BitVec.allOnes 3) false false false false false 0#32 ((BitVec.allOnes 4).setWidth 32) := by
  simp only [carriedBits, hop]; decide

theorem carriedBits_of_predict {w : CmdWord} (hop : opField w = 1#3) : carriedBits w =
    packWord (BitVec.allOnes 3) true false false false false (BitVec.allOnes 32) (BitVec.allOnes 32) := by
  simp only [carriedBits, hop]; decide

theorem carriedBits_of_train {w : CmdWord} (hop : opField w = 2#3) : carriedBits w =
    packWord (BitVec.allOnes 3) true true true true true (BitVec.allOnes 32) (BitVec.allOnes 32) := by
  simp only [carriedBits, hop]; decide

theorem carriedBits_of_noOperand {w : CmdWord} (hop : 3 ≤ (opField w).toNat) : carriedBits w =
    packWord (BitVec.allOnes 3) false false false false false 0#32 0#32 := by
  unfold carriedBits
  split
  case h_4 => decide
  all_goals omega

/-- Settles O3: masking a word to its carried bits packs again the fields its instruction keeps. -/
theorem encodeOfDecode : Obligations.EncodeOfDecode := by
  intro scheme w
  rcases opField_cases w with hop | hop | hop | hop | hop
  · rw [decode_init scheme hop, encode_decodeInit, carriedBits_of_init hop, and_packWord, hop, pcField_and_selMask]
    simp [packInit]
  · rw [decode_predict scheme hop, encode_decodePredict, carriedBits_of_predict hop, and_packWord, hop]
    simp [packPredict, -BitVec.reduceAllOnes]
  · rw [decode_train scheme hop, encode_decodeTrain, carriedBits_of_train hop, and_packWord, hop]
    simp [packTrain, -BitVec.reduceAllOnes]
  · rw [decode_cleanup scheme hop, carriedBits_of_noOperand (by simp [hop]), and_packWord, hop]
    simp [encode]
  · rw [decode_reserved scheme hop, carriedBits_of_noOperand (by omega), and_packWord]
    simp [encode, -BitVec.reduceAllOnes]

/-! The opcode table (R88). -/

/-- The bits an opcode row can look at: OP, IS_CONDITIONAL and the selector. -/
def rowBits : CmdWord := packWord (BitVec.allOnes 3) false false false true false 0#32 ((BitVec.allOnes 4).setWidth 32)

theorem and_rowBits (w : CmdWord) : w &&& rowBits = packWord (opField w) false false false (isConditionalField w) false
    0#32 ((schemeSelField w).setWidth 32) := by
  rw [rowBits, and_packWord, pcField_and_selMask]
  simp [-BitVec.reduceAllOnes]

/-- A row matches a word by its row bits alone. -/
theorem matchesWord_and_rowBits {row : OpcodeRow} (hrow : row ∈ opcodeRows) (w : CmdWord) :
    row.matchesWord (w &&& rowBits) = row.matchesWord w := by
  have hmask : ∀ row ∈ opcodeRows, rowBits &&& row.mask = row.mask := by decide
  simp only [OpcodeRow.matchesWord, BitVec.and_assoc, hmask row hrow]

/-- One row matches each of the 256 words that hold nothing but row bits. -/
theorem one_row_matches (op : BitVec 3) (n : Bool) (sel : BitVec 4) : (opcodeRows.filter fun row =>
    row.matchesWord (packWord op false false false n false 0#32 (sel.setWidth 32))).length = 1 := by
  revert op n sel; decide

/-- Settles O5: the rows look at eight bits only, and each value of these bits matches one row. -/
theorem exactlyOneRowMatches : Obligations.ExactlyOneRowMatches := by
  intro w
  obtain ⟨row, hrow⟩ := List.length_eq_one_iff.mp
    (one_row_matches (opField w) (isConditionalField w) (schemeSelField w))
  have hmem (r : OpcodeRow) : (r ∈ opcodeRows ∧ r.matchesWord w = true) ↔ r = row := by
    rw [← List.mem_singleton (b := row), ← hrow, List.mem_filter, ← and_rowBits]
    exact and_congr_right fun hr => by rw [matchesWord_and_rowBits hr]
  exact ⟨row, (hmem row).mpr rfl, fun r hr => (hmem r).mp hr⟩

/-! What a word's masked value says of the fields the mask holds in full. -/

section Masked
variable {w m p : CmdWord} (h : w &&& m = p)
include h

theorem opField_of_and (hm : opField m = BitVec.allOnes 3) : opField w = opField p := by
  rw [← h, opField_and, hm, BitVec.and_allOnes]

theorem schemeSelField_of_and (hm : schemeSelField m = BitVec.allOnes 4) : schemeSelField w = schemeSelField p := by
  rw [← h, schemeSelField_and, hm, BitVec.and_allOnes]

theorem pcField_of_and (hm : pcField m = BitVec.allOnes 32) : pcField w = pcField p := by
  rw [← h, pcField_and, hm, BitVec.and_allOnes]

theorem isConditionalField_of_and (hm : isConditionalField m = true) :
    isConditionalField w = isConditionalField p := by
  rw [isConditionalField] at hm
  rw [← h, isConditionalField, isConditionalField, BitVec.getLsbD_and, hm, Bool.and_true]

theorem outcomeField_of_and (hm : m.getLsbD 64 = true) : outcomeField w = outcomeField p := by
  rw [← h, outcomeField, outcomeField, BitVec.getLsbD_and, hm, Bool.and_true]

end Masked

/-- A word of an INIT row with a known selector decodes by that selector (R88). -/
theorem decode_of_initRow (scheme : Option Scheme) {w p : CmdWord} (h : w &&& 0xE0000000000000000F#72 = p)
    (hp : opField p = 0#3) : decode scheme w = decodeInit (schemeSelField p) := by
  rw [decode_init scheme ((opField_of_and h (by decide)).trans hp), schemeSelField_of_and h (by decide)]

/-- A word of the two rows of INIT.UNKNOWN has OP 0 and a selector of 4 or more (R88). -/
theorem unknown_of_rows {w : CmdWord} (h : w &&& 0xE0000000000000000C#72 = 0x000000000000000004#72 ∨
    w &&& 0xE00000000000000008#72 = 0x000000000000000008#72) : opField w = 0#3 ∧ 4 ≤ (schemeSelField w).toNat := by
  have hsel (sel : BitVec 4) : (sel &&& 12#4 = 4#4 → 4 ≤ sel.toNat) ∧ (sel &&& 8#4 = 8#4 → 4 ≤ sel.toNat) := by
    revert sel; decide
  rcases h with h | h
  · exact ⟨opField_of_and h (by decide),
      (hsel _).1 ((schemeSelField_and w 0xE0000000000000000C#72).symm.trans (congrArg schemeSelField h))⟩
  · exact ⟨opField_of_and h (by decide),
      (hsel _).2 ((schemeSelField_and w 0xE00000000000000008#72).symm.trans (congrArg schemeSelField h))⟩

/-- A word of the reserved row has an OP of 4 or more (R88). -/
theorem reserved_of_row {w : CmdWord} (h : w &&& 0x800000000000000000#72 = 0x800000000000000000#72) :
    4 ≤ (opField w).toNat := by
  have hop (op : BitVec 3) : op &&& 4#3 = 4#3 → 4 ≤ op.toNat := by revert op; decide
  exact hop _ ((opField_and w 0x800000000000000000#72).symm.trans (congrArg opField h))

/-- Settles O6: a row's mask holds OP, and the selector or IS_CONDITIONAL, so its match fixes the decoder's branch. -/
theorem opcodeMapByMatchAndMask : Obligations.OpcodeMapByMatchAndMask := by
  intro w m
  refine ⟨fun h => decode_of_initRow _ h (by decide), fun h => decode_of_initRow _ h (by decide),
    fun h => decode_of_initRow _ h (by decide), fun h => decode_of_initRow _ h (by decide), fun h => ?_, fun h => ?_,
    fun h => ?_, fun h => ?_, fun h => ?_, fun h => decode_reserved _ (reserved_of_row h)⟩
  · obtain ⟨hop, hsel⟩ := unknown_of_rows h
    exact (decode_init _ hop).trans (decodeInit_unknown hsel)
  · have hop : opField w = 1#3 := opField_of_and h (by decide)
    rw [decode_predict _ hop]; rfl
  · have hop : opField w = 2#3 := opField_of_and h (by decide)
    have hc : isConditionalField w = false := isConditionalField_of_and h (by decide)
    exact decode_trainNc _ hop hc
  · have hop : opField w = 2#3 := opField_of_and h (by decide)
    have hc : isConditionalField w = true := isConditionalField_of_and h (by decide)
    exact (decode_train _ hop).trans (if_pos hc)
  · have hop : opField w = 3#3 := opField_of_and h (by decide)
    exact decode_cleanup _ hop

/-! The used bits (R82 to R86). -/

theorem opField_usedBits (w : CmdWord) : opField (usedBits w) = BitVec.allOnes 3 := by
  unfold usedBits
  split <;> decide

/-- Two words that agree in their used bits have the same OP, so each agrees with the other in the same bits. -/
theorem opField_eq_of_used {w w' : CmdWord} (h : w &&& usedBits w = w' &&& usedBits w') : opField w = opField w' :=
  (opField_of_and h (opField_usedBits w)).trans (opField_of_and rfl (opField_usedBits w')).symm

section Used
variable {w w' : CmdWord} (h : w &&& usedBits w = w' &&& usedBits w')
include h

theorem schemeSelField_eq_of_used (hop : opField w = 0#3) : schemeSelField w = schemeSelField w' := by
  have hused (v : CmdWord) (hv : opField v = 0#3) : schemeSelField (usedBits v) = BitVec.allOnes 4 := by
    simp only [usedBits, hv]; decide
  have hop' := (opField_eq_of_used h).symm.trans hop
  exact (schemeSelField_of_and h (hused w hop)).trans (schemeSelField_of_and rfl (hused w' hop')).symm

theorem pcField_eq_of_used (hop : opField w = 1#3 ∨ opField w = 2#3) : pcField w = pcField w' := by
  have hused (v : CmdWord) (hv : opField v = 1#3 ∨ opField v = 2#3) : pcField (usedBits v) = BitVec.allOnes 32 := by
    rcases hv with hv | hv <;> simp only [usedBits, hv] <;> decide
  have hop' : opField w' = 1#3 ∨ opField w' = 2#3 := opField_eq_of_used h ▸ hop
  exact (pcField_of_and h (hused w hop)).trans (pcField_of_and rfl (hused w' hop')).symm

theorem trainFields_eq_of_used (hop : opField w = 2#3) :
    isConditionalField w = isConditionalField w' ∧ outcomeField w = outcomeField w' := by
  have hused (v : CmdWord) (hv : opField v = 2#3) :
      isConditionalField (usedBits v) = true ∧ (usedBits v).getLsbD 64 = true := by
    simp only [usedBits, hv]; decide
  obtain ⟨hc, ho⟩ := hused w hop
  obtain ⟨hc', ho'⟩ := hused w' ((opField_eq_of_used h).symm.trans hop)
  exact ⟨(isConditionalField_of_and h hc).trans (isConditionalField_of_and rfl hc').symm,
    (outcomeField_of_and h ho).trans (outcomeField_of_and rfl ho').symm⟩

end Used

end Sys2Proof

/-! Conditional TRAIN, in whatever mode its word is read (R202). -/

namespace Sys2Proof

/-- The branch and the outcome a conditional TRAIN trains with, in any mode; none for the other instructions. -/
def Instr.trainedBranch : Instr → Option (Addr × Dir)
  | .trainStatic pc _ o .. | .trainGshare pc _ o .. => some (pc, o)
  | .trainTournament pc _ o .. | .trainCustom pc _ o .. => some (pc, o)
  | .initStatic | .initGshare | .initTournament | .initCustom | .initUnknown _ => none
  | .predictStatic .. | .predictGshare .. | .predictTournament .. | .predictCustom .. => none
  | .trainNc .. | .cleanup | .reserved _ => none

/-- A TRAIN word with IS_CONDITIONAL = 1 trains with its PC and OUTCOME fields, whatever the mode it is read in. -/
theorem decode_trainedBranch (scheme : Option Scheme) {w : CmdWord} (hop : opField w = 2#3)
    (hc : isConditionalField w = true) : (decode scheme w).trainedBranch = some (pcField w, outcomeField w) := by
  rw [(decode_train scheme hop).trans (if_pos hc)]
  cases readingMode scheme <;> rfl

end Sys2Proof

/-! What a command word does, by its fields (R201, R202): no other field and no mode matters. -/

namespace Sys2Proof.Machine

/-- A conditional TRAIN does what the active scheme's rule does, whatever its row (R202). -/
theorem exec_of_trainedBranch {i : Instr} {pc : Addr} {o : Dir} (hi : i.trainedBranch = some (pc, o)) (s : State) :
    exec i s = s.whenReady (s.dispatchTrain pc o) := by
  cases i with
  | trainStatic pc' target o' c r d => cases hi; exact execTrainStatic_eq pc target o c r d s
  | trainGshare pc' target o' c r d => cases hi; exact execTrainGshare_eq pc target o c r d s
  | trainTournament pc' target o' c r d => cases hi; exact execTrainTournament_eq pc target o c r d s
  | trainCustom pc' target o' c r d => cases hi; exact execTrainCustom_eq pc target o c r d s
  | _ => cases hi

section WordMeaning
variable (scheme : Option Scheme) {w : CmdWord} (s : State)

theorem exec_decode_predict (hop : opField w = 1#3) :
    exec (decode scheme w) s = s.whenReady (s.dispatchPredict (pcField w)) :=
  exec_of_predictPc (decode_predictPc scheme hop) s

theorem exec_decode_trainNc (hop : opField w = 2#3) (hc : isConditionalField w = false) :
    exec (decode scheme w) s = s.whenReady fun _ => s.untrained := by
  rw [decode_trainNc scheme hop hc]; rfl

theorem exec_decode_train (hop : opField w = 2#3) (hc : isConditionalField w = true) :
    exec (decode scheme w) s = s.whenReady (s.dispatchTrain (pcField w) (outcomeField w)) :=
  exec_of_trainedBranch (decode_trainedBranch scheme hop hc) s

/-- The mode a word is read in does not change what the word does. -/
theorem exec_decode_mode (scheme' : Option Scheme) (w : CmdWord) :
    exec (decode scheme w) s = exec (decode scheme' w) s := by
  rcases opField_cases w with hop | hop | hop | hop | hop
  · rw [decode_init scheme hop, decode_init scheme' hop]
  · rw [exec_decode_predict scheme s hop, exec_decode_predict scheme' s hop]
  · cases hc : isConditionalField w
    · rw [exec_decode_trainNc scheme s hop hc, exec_decode_trainNc scheme' s hop hc]
    · rw [exec_decode_train scheme s hop hc, exec_decode_train scheme' s hop hc]
  · rw [decode_cleanup scheme hop, decode_cleanup scheme' hop]
  · rw [decode_reserved scheme hop, decode_reserved scheme' hop]

/-- The bits a word's format does not use do not change what the word does (R86). -/
theorem exec_decode_of_used {w' : CmdWord} (h : w &&& usedBits w = w' &&& usedBits w') :
    exec (decode scheme w) s = exec (decode scheme w') s := by
  have hopeq := opField_eq_of_used h
  rcases opField_cases w with hop | hop | hop | hop | hop
  · rw [decode_init scheme hop, decode_init scheme (hopeq ▸ hop), schemeSelField_eq_of_used h hop]
  · rw [exec_decode_predict scheme s hop, exec_decode_predict scheme s (hopeq ▸ hop), pcField_eq_of_used h (.inl hop)]
  · obtain ⟨hceq, hoeq⟩ := trainFields_eq_of_used h hop
    cases hc : isConditionalField w
    · rw [exec_decode_trainNc scheme s hop hc, exec_decode_trainNc scheme s (hopeq ▸ hop) (hceq ▸ hc)]
    · rw [exec_decode_train scheme s hop hc, exec_decode_train scheme s (hopeq ▸ hop) (hceq ▸ hc),
        pcField_eq_of_used h (.inr hop), hoeq]
  · rw [decode_cleanup scheme hop, decode_cleanup scheme (hopeq ▸ hop)]
  · rw [decode_reserved scheme hop, decode_reserved scheme (hopeq ▸ hop), hopeq]

end WordMeaning

/-- Settles O7: both steps execute what their words decode to in the same mode, which the used bits fix. -/
theorem ignoredFieldsHaveNoEffect : Obligations.IgnoredFieldsHaveNoEffect := by
  intro s w w' rest h
  rw [step_command (w := w) rfl, step_command (w := w') rfl]
  exact exec_decode_of_used s.scheme _ h

/-- Every instruction is the row its word is read by in the instruction's own mode. -/
theorem readIn_rowMode (i : Instr) : i.readIn i.rowMode = true := by
  rcases hrow : i.rowMode with _ | m
  · exact readIn_of_rowMode_none none hrow
  · exact (readIn_iff hrow).mpr rfl

/-- A well-formed instruction does what its word does, in whatever mode the word is read. -/
theorem exec_eq_exec_decode {i : Instr} (hwf : i.wellFormed = true) (scheme : Option Scheme) (s : State) :
    exec i s = exec (decode scheme (encode i)) s := by
  conv_lhs => rw [← decodeOfEncode i.rowMode i hwf (readIn_rowMode i)]
  exact exec_decode_mode i.rowMode s scheme (encode i)

/-- Settles O8: each of the two does what the one word does. -/
theorem oneWordOneEffect : Obligations.OneWordOneEffect := by
  intro i j s hi hj h
  rw [exec_eq_exec_decode hi none s, exec_eq_exec_decode hj none s, h]

/-! PRED in the response (R91). -/

/-- The response the state shows, if any, holds no prediction. -/
def State.unpredicted (s : State) : Prop := ∀ r, s.resp = some r → r.pred = none

/-- An answer without a prediction. -/
theorem unpredicted_respond_none (s : State) : (s.respond none).unpredicted := by
  intro r hr; cases hr; rfl

/-- An effect that ends in FAULTED is not the answer to an accepted command. -/
theorem Effect.unpredicted_of_faulted {s t : State} (h : Effect s t) (ht : t.ctlState = .faulted) :
    t.unpredicted := by
  cases h with
  | answered d hs => cases hs.symm.trans ht
  | ignored | raised | seeded | trained | released => exact unpredicted_respond_none _

section GateResponses
variable {s t : State}

theorem whenReady_unpredicted {run : SchemeState → StepResult} (hrun : ∀ a, run a = .next t → t.unpredicted)
    (h : s.whenReady run = .next t) : t.unpredicted := by
  rcases hc : s.ctl with _ | a | ⟨c, left⟩
  · rw [whenReady_uninit hc] at h; cases h; exact unpredicted_respond_none _
  · rw [whenReady_ready hc] at h; exact hrun a h
  · rw [whenReady_faulted hc] at h; cases h; exact unpredicted_respond_none _

theorem whenUninit_unpredicted {run : StepResult} (hrun : run = .next t → t.unpredicted)
    (h : s.whenUninit run = .next t) : t.unpredicted := by
  rcases hc : s.ctl with _ | a | ⟨c, left⟩
  · rw [whenUninit_uninit hc] at h; exact hrun h
  · rw [whenUninit_ready hc] at h; cases h; exact unpredicted_respond_none _
  · rw [whenUninit_faulted hc] at h; cases h; exact unpredicted_respond_none _

theorem dispatchTrain_unpredicted {pc : Addr} {o : Dir} {a : SchemeState} (h : s.dispatchTrain pc o a = .next t) :
    t.unpredicted := by
  rcases dispatchTrain_next s pc o a with hd | ⟨a', -, hd⟩
  all_goals rw [hd] at h; cases h; exact unpredicted_respond_none _

end GateResponses

/-- An instruction that is no PREDICT leaves a response without a prediction. -/
theorem exec_unpredicted {i : Instr} {s t : State} (hi : i.predictPc = none) (h : exec i s = .next t) :
    t.unpredicted := by
  have of_next {u : State} (hu : (Host.Outcome.next (u.respond none) : StepResult) = .next t) : t.unpredicted := by
    cases hu; exact unpredicted_respond_none u
  cases i with
  | initStatic | initGshare | initTournament | initCustom | initUnknown => exact whenUninit_unpredicted of_next h
  | predictStatic | predictGshare | predictTournament | predictCustom => cases hi
  | trainNc | cleanup => exact whenReady_unpredicted (fun _ => of_next) h
  | trainStatic | trainGshare | trainTournament | trainCustom =>
    exact whenReady_unpredicted (fun _ => dispatchTrain_unpredicted) ((exec_of_trainedBranch rfl s).symm.trans h)
  | reserved op =>
    by_cases hs : s.ctlState = .faulted
    · obtain ⟨c, left, hc⟩ := ctl_of_faulted hs
      exact of_next ((unlessFaulted_faulted hc _).symm.trans h)
    · exact of_next ((unlessFaulted_else hs _).symm.trans h)

theorem predictPc_of_opField_ne {i : Instr} (hop : opField (encode i) ≠ 1#3) : i.predictPc = none := by
  cases i with
  | predictStatic | predictGshare | predictTournament | predictCustom => exact absurd (opField_packWord ..) hop
  | _ => rfl

/-- Settles O22: only a PREDICT that does not end in FAULTED answers a prediction. -/
theorem noPredictionOutsidePredict : Obligations.NoPredictionOutsidePredict := by
  intro i s t r _ hexec hr hcase
  have hpred : r.pred = none := by
    rcases hcase with hop | hfaulted
    · exact exec_unpredicted (predictPc_of_opField_ne hop) hexec r hr
    · exact (effect_of_exec hexec).unpredicted_of_faulted hfaulted r hr
  exact ⟨hpred, by rw [(respWord_fields r).2.2, hpred]; rfl⟩

/-! Sample words, pseudo-instructions, and the steps without a command. -/

/-- Settles O1: each word is a literal, so each part is an evaluation. -/
theorem sampleWordsDecode : Obligations.SampleWordsDecode := by
  unfold Obligations.SampleWordsDecode
  decide

/-- Settles O10: a reset takes the block to UNINIT, where no view holds a value; an idle step keeps it. -/
theorem resetAndIdleSteps : Obligations.ResetAndIdleSteps := by
  constructor
  · intro s rest hin
    obtain ⟨hstate, hscheme, hactive, hcode, -⟩ := views_of_uninit (hardwareReset_ctl { s with inputs := rest })
    exact ⟨_, step_reset hin, hstate, hcode, hscheme, hactive, rfl, rfl, rfl⟩
  · intro s hin
    exact ⟨_, step_nil hin, rfl, rfl, hin, rfl⟩

/-- Settles O56: the assembler's table gives both sides the same words. -/
theorem pseudoInstructionsExpand : Obligations.PseudoInstructionsExpand :=
  fun _ _ _ => ⟨rfl, rfl⟩

end Sys2Proof.Machine
end

section
/-! The saturating counter (spec 40_saturating_counter): `dir` and `upd` as arithmetic on the codes of R100. Saturation
and the single step are read off that arithmetic. -/

namespace Sys2Proof.Machine

/-- R102: the direction is the high bit of the code. -/
theorem dir_eq_highBit (c : Cell) : dir c = Dir.ofBool ((cellCode c).getLsbD 1) := by cases c <;> rfl

/-- R104: Taken is the increment clamped to 3. -/
theorem cellCode_upd_taken (c : Cell) : (cellCode (upd c .taken)).toNat = min ((cellCode c).toNat + 1) 3 := by
  cases c <;> rfl

/-- R104: NotTaken is the decrement clamped to 0. -/
theorem cellCode_upd_notTaken (c : Cell) :
    (cellCode (upd c .notTaken)).toNat = max (cellCode c).toNat 1 - 1 := by cases c <;> rfl

/-- R106: the two clamped steps move the code by one at most, since a code is below 4. -/
theorem cellCode_upd_step (c : Cell) (o : Dir) :
    (cellCode (upd c o)).toNat ≤ (cellCode c).toNat + 1 ∧ (cellCode c).toNat ≤ (cellCode (upd c o)).toNat + 1 := by
  have hcode : (cellCode c).toNat < 4 := (cellCode c).isLt
  cases o with
  | taken => rw [cellCode_upd_taken]; omega
  | notTaken => rw [cellCode_upd_notTaken]; omega

/-- R105: an update joins only cells that are neighbours in the chain, so none joins its two ends. -/
theorem upd_ne_opposite_end (o : Dir) : upd .st o ≠ .sn ∧ upd .sn o ≠ .st := by
  constructor
  · intro hwrap
    have hstep : 3 ≤ (cellCode (upd .st o)).toNat + 1 := (cellCode_upd_step .st o).2
    rw [hwrap] at hstep
    exact absurd hstep (by decide)
  · intro hwrap
    have hstep : (cellCode (upd .sn o)).toNat ≤ 1 := (cellCode_upd_step .sn o).1
    rw [hwrap] at hstep
    exact absurd hstep (by decide)

/-- Settles O46: the four fixed points are rows of R104's table; the ends are three codes apart and an update moves the
code by one at most. -/
theorem counterSaturates : Obligations.CounterSaturates :=
  ⟨rfl, rfl, rfl, rfl, upd_ne_opposite_end⟩

/-- Settles O47. -/
theorem counterArithmeticOnCodes : Obligations.CounterArithmeticOnCodes :=
  fun c => ⟨dir_eq_highBit c, cellCode_upd_taken c, cellCode_upd_notTaken c, cellOfCode_cellCode c⟩

/-- Settles O48: the single step for every cell; the hysteresis is six rows of R104's table. -/
theorem counterSingleStepAndHysteresis : Obligations.CounterSingleStepAndHysteresis :=
  ⟨cellCode_upd_step, rfl, rfl, rfl, rfl, rfl, rfl⟩

end Sys2Proof.Machine
end

section
/-! The history shift register (spec 41_history_register). The model's shift is Mathlib's `Nat.bit`; from that come the
bits of one shift, of any run of shifts, and the three statements. -/

namespace Sys2Proof.Machine

/-- The unmasked shift of R121 puts the outcome below the bits of the history. -/
theorem shiftLeft_or_dirBit (h : Nat) (o : Dir) : (h <<< 1) ||| dirBit o = Nat.bit o.toBool h := by
  have hbit : dirBit o < 2 ^ 1 := Bool.toNat_lt o.toBool
  rw [← Nat.shiftLeft_add_eq_or_of_lt hbit, Nat.shiftLeft_eq, Nat.bit_val, dirBit, pow_one, Nat.mul_comm]

theorem shl1_eq_bit_and_mask (h : Nat) (o : Dir) (n : Nat) : shl1 h o n = Nat.bit o.toBool h &&& mask n := by
  rw [shl1, shiftLeft_or_dirBit]

/-- R121: bit 0 of a shifted history is the outcome. -/
theorem testBit_shl1_zero (h : Nat) (o : Dir) (n : Nat) : (shl1 h o n).testBit 0 = (decide (0 < n) && o.toBool) := by
  rw [shl1_eq_bit_and_mask, testBit_and_mask, Nat.testBit_bit_zero]

/-- R121: every other bit of a shifted history is the old bit below it, and the old bit `n - 1` is lost. -/
theorem testBit_shl1_succ (h : Nat) (o : Dir) (n i : Nat) :
    (shl1 h o n).testBit (i + 1) = (decide (i + 1 < n) && h.testBit i) := by
  rw [shl1_eq_bit_and_mask, testBit_and_mask, Nat.testBit_bit_succ]

/-- Bit `i` after a run of shifts is the outcome `i` before the newest; past the run's first outcome it is a bit of the
history the run began with, moved up by the run's length. -/
theorem testBit_foldl_shl1 {n : Nat} (h : Nat) (outcomes : List Dir) {i : Nat} (hi : i < n) :
    (outcomes.foldl (fun x o => shl1 x o n) h).testBit i =
      (outcomes.reverse[i]?.map Dir.toBool).getD (h.testBit (i - outcomes.length)) := by
  induction outcomes using List.reverseRecOn generalizing i with
  | nil => rfl
  | append_singleton older newest ih =>
    rw [List.foldl_concat, List.reverse_concat]
    cases i with
    | zero => rw [testBit_shl1_zero]; simp [hi]
    | succ i => simp [testBit_shl1_succ, hi, ih (Nat.lt_of_succ_lt hi)]

/-- Settles O49: from the INIT value 0 only the outcomes of the run show. -/
theorem historyBitsAreOutcomes : Obligations.HistoryBitsAreOutcomes := by
  intro n outcomes i hi
  rw [testBit_foldl_shl1 0 outcomes hi, Nat.zero_testBit]
  cases outcomes.reverse[i]? with
  | none => rfl
  | some o => cases o <;> rfl

/-- R123: a shift in `n` bits depends on the low `n` bits of the history alone. -/
theorem shl1_and_mask (h : Nat) (o : Dir) (n : Nat) : shl1 (h &&& mask n) o n = shl1 h o n := by
  apply Nat.eq_of_testBit_eq
  intro i
  cases i with
  | zero => rw [testBit_shl1_zero, testBit_shl1_zero]
  | succ i =>
    rw [testBit_shl1_succ, testBit_shl1_succ, testBit_and_mask]
    by_cases hi : i + 1 < n
    · simp [hi, Nat.lt_of_succ_lt hi]
    · simp [hi]

/-- R123: the register of `n` bits is at every step the software's integer masked to `n`. -/
theorem foldl_shl1_and_mask (n h : Nat) (outcomes : List Dir) :
    outcomes.foldl (fun x o => shl1 x o n) (h &&& mask n) =
      outcomes.foldl (fun x o => (x <<< 1) ||| dirBit o) h &&& mask n :=
  List.foldl_hom (· &&& mask n) fun x o => shl1_and_mask x o n

/-- A read of at most `n` bits sees nothing of a mask to `n` before it. -/
theorem and_mask_and_mask_of_le (v : Nat) {n k : Nat} (hk : k ≤ n) : v &&& mask n &&& mask k = v &&& mask k := by
  simp only [and_mask]
  exact Nat.mod_mod_of_dvd v (Nat.pow_dvd_pow 2 hk)

/-- Settles O50: the register is the software's integer masked to `n`, and a read of at most `n` bits does not see that
mask. -/
theorem storedWidthIsIndistinguishable : Obligations.StoredWidthIsIndistinguishable := by
  intro n k h outcomes hk
  rw [foldl_shl1_and_mask, and_mask_and_mask_of_le _ hk]

theorem foldl_shl1_lt {n : Nat} (h : Nat) {outcomes : List Dir} (hne : outcomes ≠ []) :
    outcomes.foldl (fun x o => shl1 x o n) h < 2 ^ n := by
  obtain ⟨older, newest, rfl⟩ := List.eq_nil_or_concat' outcomes |>.resolve_left hne
  rw [List.foldl_concat]
  exact shl1_lt _ newest n

/-- R128: at least `n` shifts of one outcome leave it in each of the `n` bits, and nothing above them. -/
theorem testBit_foldl_shl1_replicate {n k : Nat} (hn : 1 ≤ n) (hk : n ≤ k) (h : Nat) (o : Dir) (i : Nat) :
    ((List.replicate k o).foldl (fun x o => shl1 x o n) h).testBit i = (decide (i < n) && o.toBool) := by
  by_cases hi : i < n
  · have hshown : (List.replicate k o).reverse[i]? = some o := by
      simp [Nat.lt_of_lt_of_le hi hk]
    rw [testBit_foldl_shl1 h _ hi, hshown]
    simp [hi]
  · have hne : List.replicate k o ≠ [] := by rw [Ne, List.replicate_eq_nil_iff]; omega
    have hfits := Nat.lt_of_lt_of_le (foldl_shl1_lt (n := n) h hne)
      (Nat.pow_le_pow_right Nat.two_pos (Nat.le_of_not_lt hi))
    rw [Nat.testBit_lt_two_pow hfits]
    simp [hi]

/-- Settles O51: `mask n` is the value with exactly the bits below `n`, and 0 the one with none. -/
theorem longRunsFillTheHistory : Obligations.LongRunsFillTheHistory := by
  intro n k h hn hk
  constructor
  · refine Nat.eq_of_testBit_eq fun i => ?_
    rw [testBit_foldl_shl1_replicate hn hk, mask, Nat.testBit_two_pow_sub_one]
    exact Bool.and_true _
  · refine Nat.zero_of_testBit_eq_false fun i => ?_
    rw [testBit_foldl_shl1_replicate hn hk]
    exact Bool.and_false _

end Sys2Proof.Machine
end

section
/-! Gshare (spec 42_gshare): what PREDICT and a conditional TRAIN do to a READY block in the mode Gshare, and that a
TRAIN steps the cell its PREDICT read. -/

namespace Sys2Proof.Machine

/-! The two commands in READY with Gshare (R141, R143). -/

section ReadyGshare
variable {s : State} {g : GshareState}

/-- R141: the direction of the indexed cell is answered, and that is all. -/
theorem predict_readyGshare (hs : s.ctl = .ready (.gshare g)) (pc : Addr) :
    ∃ c, cellOfCode (cellAt g.bht (gidx s.cfg.g.bits pc.toNat g.ghr)) = some c ∧
      s.whenReady (s.dispatchPredict pc) = .next (s.respond (some (dir c))) := by
  obtain ⟨c, hc, hpredict⟩ := gsharePredict_eq s.cfg pc g
  refine ⟨c, hc, ?_⟩
  simp only [whenReady_ready hs, State.dispatchPredict, State.predicted, hpredict, conclude_ok]

/-- R143: the cell at the index of the old history steps, no other cell does, and the history shifts. -/
theorem train_readyGshare (hs : s.ctl = .ready (.gshare g)) (pc : Addr) (o : Dir) :
    ∃ (c : Cell) (g' : GshareState), cellOfCode (cellAt g.bht (gidx s.cfg.g.bits pc.toNat g.ghr)) = some c ∧
      s.whenReady (s.dispatchTrain pc o) = .next (s.becomeReady (.gshare g')) ∧
      (∀ j, cellAt g'.bht j = if j = gidx s.cfg.g.bits pc.toNat g.ghr then cellCode (upd c o) else cellAt g.bht j) ∧
      g'.ghr = shl1 g.ghr o s.cfg.g.bits := by
  obtain ⟨c, hc, htrain⟩ := gshareTrain_eq s.cfg pc o g
  have hnext : s.whenReady (s.dispatchTrain pc o) = s.trained (gshareTrain s.cfg pc o g) .gshare :=
    whenReady_ready hs _
  rw [htrain] at hnext
  exact ⟨c, _, hc, hnext, cellAt_write g.bht _ (upd c o), rfl⟩

end ReadyGshare

/-- An answer in READY changes the response port alone. -/
theorem respond_of_ready {s : State} {a : SchemeState} (hs : s.ctl = .ready a) (d : Option Dir) :
    s.respond d = { s with resp := some (answer d) } :=
  state_ext rfl rfl (respond_resp_of_ready (views_of_ready hs).1 d) rfl

/-- Settles O35: PREDICT.GSHARE is the active scheme's rule (`predict_readyGshare`), and `gidx` is R140's index. -/
theorem predictGshareAnswersCellDirection : Obligations.PredictGshareAnswersCellDirection := by
  intro s g pc target d hs
  obtain ⟨c, hc, hpredict⟩ := predict_readyGshare hs pc
  refine ⟨c, hc, ?_⟩
  rw [exec_of_predictPc rfl, hpredict, respond_of_ready hs]

/-- Settles O41: TRAIN.GSHARE is the active scheme's rule (`train_readyGshare`). -/
theorem trainGshareStepsCellAndHistory : Obligations.TrainGshareStepsCellAndHistory := by
  intro s g pc target o c r d hs
  obtain ⟨cell, g', hcell, htrain, hcells, hghr⟩ := train_readyGshare hs pc o
  exact ⟨cell, g', hcell, (exec_of_trainedBranch rfl s).trans htrain, hcells, hghr⟩

/-! A PREDICT, quiet words, and the TRAIN of the same branch (R144). -/

/-- A run in two parts is the second part from where the first one ends. -/
theorem run_add {m : Nat} (n : Nat) {s t : State} (h : core.run m s = .next t) :
    core.run (m + n) s = core.run n t := by
  induction m generalizing s with
  | zero => cases h; rw [Nat.zero_add]
  | succ m ih =>
    obtain ⟨u, hu, -⟩ := step_effect s
    rw [Nat.succ_add, run_succ _ hu]
    exact ih ((run_succ m hu).symm.trans h)

section Words
variable {s : State} {g : GshareState} {w : CmdWord} {rest : List HostEvent}

/-- A step with a PREDICT word in READY with Gshare: the answer, and the word taken. -/
theorem step_predict_readyGshare (hs : s.ctl = .ready (.gshare g)) (hop : opField w = 1#3)
    (hin : s.inputs = .command w :: rest) :
    ∃ (c : Cell) (t : State), cellOfCode (cellAt g.bht (gidx s.cfg.g.bits (pcField w).toNat g.ghr)) = some c ∧
      step s = .next t ∧ t.resp = some (answer (some (dir c))) ∧ t.ctl = s.ctl ∧ t.cfg = s.cfg ∧ t.inputs = rest := by
  obtain ⟨c, hc, hpredict⟩ := predict_readyGshare (s := { s with inputs := rest }) hs (pcField w)
  have hstep := ((step_command hin).trans (exec_decode_predict s.scheme _ hop)).trans hpredict
  exact ⟨c, _, hc, hstep, respond_resp_of_ready (views_of_ready hs).1 _, rfl, rfl, rfl⟩

/-- A step with a conditional TRAIN word in READY with Gshare: the cell it steps, and the word taken. -/
theorem step_train_readyGshare (hs : s.ctl = .ready (.gshare g)) (hw : isConditionalTrainWord w = true)
    (hin : s.inputs = .command w :: rest) :
    ∃ (c : Cell) (t : State) (g' : GshareState),
      cellOfCode (cellAt g.bht (gidx s.cfg.g.bits (pcField w).toNat g.ghr)) = some c ∧
      step s = .next t ∧ t.ctl = .ready (.gshare g') ∧ t.inputs = rest ∧
      ∀ j, cellAt g'.bht j =
        if j = gidx s.cfg.g.bits (pcField w).toNat g.ghr then cellCode (upd c (outcomeField w)) else cellAt g.bht j := by
  simp only [isConditionalTrainWord, Bool.and_eq_true, decide_eq_true_eq] at hw
  obtain ⟨hop, hcond⟩ := hw
  obtain ⟨c, g', hc, htrain, hcells, -⟩ :=
    train_readyGshare (s := { s with inputs := rest }) hs (pcField w) (outcomeField w)
  have hstep := ((step_command hin).trans (exec_decode_train s.scheme _ hop hcond)).trans htrain
  exact ⟨c, _, g', hc, hstep, rfl, rfl, hcells⟩

end Words

/-- Settles O45: the words between PREDICT and TRAIN keep the block (O44), so the TRAIN computes the PREDICT's index in
the PREDICT's table, and the one code there is one cell. -/
theorem trainStepsTheCellPredictRead : Obligations.TrainStepsTheCellPredictRead := by
  intro s g wp wt ws rest hs hop htrain hpc hquiet hin
  have hin' : s.inputs = .command wp :: (ws.map .command ++ .command wt :: rest) := by simpa using hin
  obtain ⟨cell, t1, hcell, hstep1, hresp, hctl1, hcfg1, hin1⟩ := step_predict_readyGshare hs hop hin'
  have hready : t1.ctlState = .ready := (views_of_ready (hctl1.trans hs)).1
  obtain ⟨t2, hrun2, hctl2, hcfg2, hin2⟩ := quietCommandsKeepTheBlock ws t1 _ hready hquiet hin1
  obtain ⟨cell', t, g', hcell', hstep3, hctl, hrest, hcells⟩ :=
    step_train_readyGshare (hctl2.trans (hctl1.trans hs)) htrain hin2
  rw [hcfg2, hcfg1, hpc] at hcell' hcells
  obtain rfl : cell = cell' := Option.some.inj (hcell.symm.trans hcell')
  have hrun : core.run (ws.length + 2) s = .next t :=
    calc core.run (ws.length + 2) s = core.run (ws.length + 1) t1 := run_succ _ hstep1
      _ = core.run 1 t2 := run_add 1 hrun2
      _ = .next t := run_succ 0 hstep3
  exact ⟨cell, t1, t, g', hcell, run_succ 0 hstep1, hresp, hrun, hctl, hrest, hcells⟩

end Sys2Proof.Machine
end

section
/-! Tournament (spec 43_tournament): what PREDICT and a conditional TRAIN do to a READY block in the mode Tournament.
What the shared predictor does to its tables is said of any plan, so it holds of Custom's plan too (R180). -/

namespace Sys2Proof.Machine

/-! The shared predictor's TRAIN, entry by entry (R163 to R168, R187 to R192). -/

section Plans
variable {p : Plan} {h : HybridState} {x : Cells}

/-- Where the sub-predictions agree the chooser does not step (R164). -/
theorem trainedChooser_of_agree (o : Dir) (hagree : dir x.lc = dir x.gc) :
    trainedChooser p o h x = h.chooserTbl := by
  rw [trainedChooser, chooserStep, if_pos hagree]

/-- Where the sub-predictions disagree the chooser steps toward the side that was right (R164, R170). -/
theorem chooserStep_of_disagree (cc : Cell) {lp gp : Dir} (o : Dir) (hne : lp ≠ gp) :
    chooserStep cc lp gp o = some (upd cc (if lp = o then .taken else .notTaken)) := by
  rw [chooserStep, if_neg hne]
  split <;> rfl

/-- The chooser's cells after a TRAIN where the sub-predictions disagree: one cell steps. -/
theorem cellAt_trainedChooser_of_disagree (o : Dir) (hne : dir x.lc ≠ dir x.gc) (j : Nat) :
    cellAt (trainedChooser p o h x) j =
      if j = p.ci then cellCode (upd x.cc (if dir x.lc = o then .taken else .notTaken)) else cellAt h.chooserTbl j := by
  rw [trainedChooser, chooserStep_of_disagree x.cc o hne]
  exact cellAt_write ..

/-- `h'` is what a TRAIN with outcome `o` makes of `h`, entry by entry: at the plan's indices into `h`, with the cells
`x` read there. -/
structure HybridUpdated (p : Plan) (o : Dir) (x : Cells) (h h' : HybridState) : Prop where
  localCells : ∀ j, cellAt h'.localTbl j =
    if j = localIndex p h then cellCode (upd x.lc o) else cellAt h.localTbl j
  globalCells : ∀ j, cellAt h'.globalTbl j = if j = p.gi then cellCode (upd x.gc o) else cellAt h.globalTbl j
  histories : ∀ j, historyAt h'.lht j =
    if j = p.li then shl1 (localIndex p h) o p.localBits else historyAt h.lht j
  phr : h'.phr = shl1 h.phr o p.pathBits
  chooserAgree : dir x.lc = dir x.gc → h'.chooserTbl = h.chooserTbl
  chooserDisagree : dir x.lc ≠ dir x.gc → ∀ j, cellAt h'.chooserTbl j =
    if j = p.ci then cellCode (upd x.cc (if dir x.lc = o then .taken else .notTaken)) else cellAt h.chooserTbl j

/-- TRAIN's pseudocode comes out with every entry updated as its rule says. -/
theorem hybridTrain_updated (o : Dir) (hr : p.inRange) (hx : x.at p h) :
    ∃ h', hybridTrain p o h = .ok h' ∧ HybridUpdated p o x h h' :=
  ⟨_, hybridTrain_eq o hr hx,
    { localCells := cellAt_write _ _ _
      globalCells := cellAt_write _ _ _
      histories := historyAt_write _ _ _
      phr := rfl
      chooserAgree := trainedChooser_of_agree o
      chooserDisagree := cellAt_trainedChooser_of_disagree o }⟩

end Plans

/-! The two commands in READY with Tournament (R162, R163). -/

section ReadyTournament
variable {s : State} {h : HybridState}

/-- R162: the direction of the selected side's cell is answered, and that is all. -/
theorem predict_readyTournament (hs : s.ctl = .ready (.tournament h)) (pc : Addr) :
    ∃ x : Cells, x.at (tournamentPlan s.cfg h.phr pc.toNat) h ∧
      s.whenReady (s.dispatchPredict pc) =
        .next (s.respond (some (if dir x.cc = .taken then dir x.lc else dir x.gc))) := by
  obtain ⟨x, hx⟩ := cells_exist (tournamentPlan s.cfg h.phr pc.toNat) h
  have hpredict : tournamentPredict s.cfg pc h = _ := hybridPredict_eq (tournamentPlan_inRange ..) hx
  refine ⟨x, hx, ?_⟩
  simp only [whenReady_ready hs, State.dispatchPredict, State.predicted, hpredict, conclude_ok]

/-- R163: the scheme state becomes the updated one, and nothing else but the answer changes. -/
theorem train_readyTournament (hs : s.ctl = .ready (.tournament h)) (pc : Addr) (o : Dir) :
    ∃ (x : Cells) (h' : HybridState), x.at (tournamentPlan s.cfg h.phr pc.toNat) h ∧
      s.whenReady (s.dispatchTrain pc o) = .next (s.becomeReady (.tournament h')) ∧
      HybridUpdated (tournamentPlan s.cfg h.phr pc.toNat) o x h h' := by
  obtain ⟨x, hx⟩ := cells_exist (tournamentPlan s.cfg h.phr pc.toNat) h
  obtain ⟨h', hrun, hupd⟩ := hybridTrain_updated o (tournamentPlan_inRange ..) hx
  have htrain : tournamentTrain s.cfg pc o h = .ok h' := hrun
  refine ⟨x, h', hx, ?_, hupd⟩
  simp only [whenReady_ready hs, State.dispatchTrain, State.trained, htrain, conclude_ok]

end ReadyTournament

/-- Settles O36: PREDICT.TOURNAMENT is the active scheme's rule (`predict_readyTournament`), at R160's indices. -/
theorem predictTournamentAnswersSelectedSide : Obligations.PredictTournamentAnswersSelectedSide := by
  intro s h pc target d hs
  obtain ⟨x, ⟨hlc, hgc, hcc⟩, hpredict⟩ := predict_readyTournament hs pc
  refine ⟨x.lc, x.gc, x.cc, hlc, hgc, hcc, ?_⟩
  rw [exec_of_predictPc rfl, hpredict, respond_of_ready hs]

/-- Settles O42: TRAIN.TOURNAMENT is the active scheme's rule (`train_readyTournament`), at R160's indices. -/
theorem trainTournamentUpdates : Obligations.TrainTournamentUpdates := by
  intro s h pc target o c r d li lh gi ci hs hli hlh hgi hci
  subst hli hlh hgi hci
  obtain ⟨x, h', ⟨hlc, hgc, hcc⟩, htrain, hupd⟩ := train_readyTournament hs pc o
  exact ⟨x.lc, x.gc, x.cc, h', hlc, hgc, hcc, (exec_of_trainedBranch rfl s).trans htrain, hupd.localCells,
    hupd.globalCells, hupd.histories, hupd.phr, hupd.chooserAgree, hupd.chooserDisagree⟩

end Sys2Proof.Machine
end

section
/-! The fold (spec 44_custom_folded R181 to R183, R194, R195): where its loop stops, its linearity, and its bits as
parities of history bits. -/

namespace Sys2Proof.Machine

/-! A window at least as wide as the history (R183, R194). -/

/-- The loop stops where no further window starts below the history's width. -/
theorem foldLoop_of_le {len n i : Nat} (hi : len ≤ i * n) (h fuel f : Nat) : foldLoop h len n fuel i f = f := by
  cases fuel with
  | zero => rfl
  | succ fuel => exact if_neg (Nat.not_lt.mpr hi)

/-- A window that starts below the history's width is XORed in. -/
theorem foldLoop_of_lt {len n i : Nat} (hi : i * n < len) (h fuel f : Nat) :
    foldLoop h len n (fuel + 1) i f = foldLoop h len n fuel (i + 1) (f ^^^ ((h >>> (i * n)) &&& mask n)) := if_pos hi

theorem fold_eq_and_mask {len n : Nat} (hlen : len ≤ n) (h : Nat) : fold h len n = h &&& mask n :=
  foldLoop_of_le (hlen.trans_eq (Nat.one_mul n).symm) h len _

/-- Settles O54: window 0 is the only one, and it holds the whole history. -/
theorem foldDegenerates : Obligations.FoldDegenerates := by
  intro h len n hlen hh
  have hfits : h < 2 ^ n := hh.trans_le (Nat.pow_le_pow_right Nat.two_pos hlen)
  rw [fold_eq_and_mask hlen, and_mask_of_lt hfits]

/-- Settles O55: at the boundary each fold of `customPlan` is the mask of window 0. -/
theorem customIndicesAtTheBoundary : Obligations.CustomIndicesAtTheBoundary := by
  intro p phr pc
  refine ⟨fun hw => ?_, fun hc => fold_eq_and_mask hc.le phr⟩
  exact congrArg (· ^^^ (pc &&& mask p.xW.bits)) (fold_eq_and_mask hw.le phr)

/-! Linearity (R195). -/

/-- A window of an XOR is the XOR of the windows. -/
theorem window_xor (a b start n : Nat) :
    ((a ^^^ b) >>> start) &&& mask n = ((a >>> start) &&& mask n) ^^^ ((b >>> start) &&& mask n) := by
  rw [Nat.shiftRight_xor_distrib, Nat.and_xor_distrib_right]

theorem foldLoop_xor (a b len n fuel i f g : Nat) :
    foldLoop (a ^^^ b) len n fuel i (f ^^^ g) = foldLoop a len n fuel i f ^^^ foldLoop b len n fuel i g := by
  induction fuel generalizing i f g with
  | zero => rfl
  | succ fuel ih =>
    rcases Nat.lt_or_ge (i * n) len with hi | hi
    · simp only [foldLoop_of_lt hi]
      rw [window_xor, ← ih]
      congr 1
      ac_rfl
    · simp only [foldLoop_of_le hi]

theorem fold_xor (a b len n : Nat) : fold (a ^^^ b) len n = fold a len n ^^^ fold b len n := by
  rw [fold, Nat.and_xor_distrib_right, foldLoop_xor, fold, fold]

/-- Settles O53: the loop is linear, and the fold of `0 = 0 ^^^ 0` is therefore a value XORed with itself. -/
theorem foldIsLinear : Obligations.FoldIsLinear := by
  intro a b len n
  refine ⟨fold_xor a b len n, ?_⟩
  have hzero := fold_xor 0 0 len n
  rwa [Nat.xor_self, Nat.xor_self] at hzero

/-! Bit by bit (R181, R182). -/

/-- The XOR of the bits of `h` at the positions below `m` that leave the remainder `j` by `n`. -/
def bitParity (h n j m : Nat) : Bool :=
  (List.range m).foldl (fun b k => b ^^ (decide (k % n = j) && h.testBit k)) false

theorem bitParity_succ (h n j m : Nat) :
    bitParity h n j (m + 1) = (bitParity h n j m ^^ (decide (m % n = j) && h.testBit m)) := by
  rw [bitParity, List.range_succ, List.foldl_concat, bitParity]

/-- Positions above the history add nothing to the parity (R182). -/
theorem bitParity_of_le {h len m : Nat} (hh : h < 2 ^ len) (hm : len ≤ m) (n j : Nat) :
    bitParity h n j m = bitParity h n j len := by
  induction m, hm using Nat.le_induction with
  | base => rfl
  | succ m hm ih =>
    have hbit : h.testBit m = false := Nat.testBit_lt_two_pow (hh.trans_le (Nat.pow_le_pow_right Nat.two_pos hm))
    rw [bitParity_succ, ih, hbit, Bool.and_false, Bool.xor_false]

/-- The first `r` positions of window `i` add bit `j` of the window, once they reach it. -/
theorem bitParity_add {n r : Nat} (h j i : Nat) (hr : r ≤ n) :
    bitParity h n j (i * n + r) = (bitParity h n j (i * n) ^^ (decide (j < r) && h.testBit (i * n + j))) := by
  induction r with
  | zero => simp
  | succ r ih =>
    have hmod : (i * n + r) % n = r := Nat.mul_add_mod_of_lt hr
    rw [← Nat.add_assoc, bitParity_succ, ih (Nat.le_of_succ_le hr), hmod]
    rcases Nat.lt_trichotomy j r with hlt | rfl | hgt
    · simp [hlt, hlt.ne', hlt.trans (Nat.lt_succ_self r)]
    · simp
    · simp [hgt.ne, Nat.not_lt.mpr hgt.le, Nat.not_lt.mpr (Nat.succ_le_of_lt hgt)]

theorem testBit_window {n j : Nat} (hj : j < n) (h start : Nat) :
    ((h >>> start) &&& mask n).testBit j = h.testBit (start + j) := by
  rw [testBit_and_mask, Nat.testBit_shiftRight, decide_eq_true hj, Bool.true_and]

/-- The loop's invariant: bit `j` of `f` is the parity over the windows before window `i`. -/
theorem testBit_foldLoop {h len n j : Nat} (hh : h < 2 ^ len) (hj : j < n) {fuel i f : Nat}
    (hfuel : len ≤ i * n + fuel) (hf : f.testBit j = bitParity h n j (i * n)) :
    (foldLoop h len n fuel i f).testBit j = bitParity h n j len := by
  have hlast {i : Nat} (hi : len ≤ i * n) : bitParity h n j (i * n) = bitParity h n j len := bitParity_of_le hh hi n j
  induction fuel generalizing i f with
  | zero => exact hf.trans (hlast hfuel)
  | succ fuel ih =>
    rcases Nat.lt_or_ge (i * n) len with hi | hi
    · rw [foldLoop_of_lt hi]
      have hnext : (i + 1) * n = i * n + n := Nat.succ_mul i n
      refine ih (by omega) ?_
      rw [hnext, bitParity_add h j i le_rfl, Nat.testBit_xor, hf, testBit_window hj, decide_eq_true hj, Bool.true_and]
    · rw [foldLoop_of_le hi, hf, hlast hi]

/-- Settles O52: the loop starts with window 0, the parity of the positions below `n`; its fuel reaches bit `len`. -/
theorem foldBitsAreParities : Obligations.FoldBitsAreParities := by
  intro h len n hn hh
  refine ⟨fold_lt h len n, fun j hj => ?_⟩
  have hwindow0 : (h &&& mask n).testBit j = bitParity h n j (1 * n) := by
    rw [testBit_and_mask, Nat.one_mul]
    simpa [bitParity] using (bitParity_add h j 0 (le_refl n)).symm
  exact testBit_foldLoop hh hj (Nat.le_add_left len _) hwindow0

end Sys2Proof.Machine
end

section
/-! Custom (spec 44_custom_folded): what PREDICT and a conditional TRAIN do to a READY block in the mode Custom. It is
the shared predictor, entry by entry as in the mode Tournament, at the folded indices of `customPlan` (R180, R184). -/

namespace Sys2Proof.Machine

section ReadyCustom
variable {s : State} {h : HybridState}

/-- R186: the direction of the selected side's cell is answered, and that is all. -/
theorem predict_readyCustom (hs : s.ctl = .ready (.custom h)) (pc : Addr) :
    ∃ x : Cells, x.at (customPlan s.cfg h.phr pc.toNat) h ∧
      s.whenReady (s.dispatchPredict pc) =
        .next (s.respond (some (if dir x.cc = .taken then dir x.lc else dir x.gc))) := by
  obtain ⟨x, hx⟩ := cells_exist (customPlan s.cfg h.phr pc.toNat) h
  have hpredict := hybridPredict_eq (customPlan_inRange ..) hx
  exact ⟨x, hx, (whenReady_ready hs _).trans (congrArg s.predicted hpredict)⟩

/-- R187: the scheme state becomes the updated one, and nothing else but the answer changes. -/
theorem train_readyCustom (hs : s.ctl = .ready (.custom h)) (pc : Addr) (o : Dir) :
    ∃ (x : Cells) (h' : HybridState), x.at (customPlan s.cfg h.phr pc.toNat) h ∧
      s.whenReady (s.dispatchTrain pc o) = .next (s.becomeReady (.custom h')) ∧
      HybridUpdated (customPlan s.cfg h.phr pc.toNat) o x h h' := by
  obtain ⟨x, hx⟩ := cells_exist (customPlan s.cfg h.phr pc.toNat) h
  obtain ⟨h', htrain, hupd⟩ := hybridTrain_updated o (customPlan_inRange ..) hx
  exact ⟨x, h', hx, (whenReady_ready hs _).trans (congrArg (s.trained · .custom) htrain), hupd⟩

end ReadyCustom

/-- Settles O37: PREDICT.CUSTOM is the active scheme's rule (`predict_readyCustom`), at R184's indices. -/
theorem predictCustomAnswersSelectedSide : Obligations.PredictCustomAnswersSelectedSide := by
  intro s h pc target d hs
  obtain ⟨x, ⟨hlc, hgc, hcc⟩, hpredict⟩ := predict_readyCustom hs pc
  refine ⟨x.lc, x.gc, x.cc, hlc, hgc, hcc, ?_⟩
  rw [exec_of_predictPc rfl, hpredict, respond_of_ready hs]

/-- Settles O43: TRAIN.CUSTOM is the active scheme's rule (`train_readyCustom`), at R184's indices. -/
theorem trainCustomUpdates : Obligations.TrainCustomUpdates := by
  intro s h pc target o c r d li lh gi ci hs hli hlh hgi hci
  subst hli hlh hgi hci
  obtain ⟨x, h', ⟨hlc, hgc, hcc⟩, htrain, hupd⟩ := train_readyCustom hs pc o
  exact ⟨x.lc, x.gc, x.cc, h', hlc, hgc, hcc, (exec_of_trainedBranch rfl s).trans htrain, hupd.localCells,
    hupd.globalCells, hupd.histories, hupd.phr, hupd.chooserAgree, hupd.chooserDisagree⟩

end Sys2Proof.Machine
end

section
/-! The control FSM (spec 45_control_fsm, with 60_exceptions and 70_reset_and_hazards): what a command word comes to in
each state of the FSM, check by check in the order of R200; the transitions and faults that follow; INIT, CLEANUP and
the no-ops; how a run ends; and the host's ordering duty. -/

namespace Sys2Proof.Machine

/-! CTL_STATE and FAULT_CODE after each update (R21, R23). -/

section Updated
variable (s : State) (c : Cause) (a : SchemeState)

@[simp] theorem ignore_faultCode : s.ignore.faultCode = s.faultCode := rfl
@[simp] theorem raise_ctlState : (s.raise c).ctlState = .faulted := rfl
@[simp] theorem raise_faultCode : (s.raise c).faultCode = some c := rfl
@[simp] theorem becomeReady_ctlState : (s.becomeReady a).ctlState = .ready := rfl
@[simp] theorem becomeReady_faultCode : (s.becomeReady a).faultCode = none := rfl
@[simp] theorem release_ctlState : s.release.ctlState = .uninit := rfl
@[simp] theorem release_faultCode : s.release.faultCode = none := rfl

/-- FAULT_CODE has a value in FAULTED alone. -/
theorem faultCode_eq_none {s : State} (hs : s.ctlState ≠ .faulted) : s.faultCode = none := by
  rcases hc : s.ctl with _ | a | ⟨c, left⟩
  · exact (views_of_uninit hc).2.2.2.1
  · exact (views_of_ready hc).2.2.2.1
  · exact absurd (views_of_faulted hc).1 hs

end Updated

/-! What a command word comes to, check by check (R200). -/

/-- In FAULTED every instruction is ignored (R219). -/
theorem exec_faulted {s : State} (hs : s.ctlState = .faulted) (i : Instr) : exec i s = .next s.ignore := by
  obtain ⟨t, hexec, heff⟩ := exec_effect i s
  cases heff with
  | ignored _ => exact hexec
  | raised hne _ => exact absurd hs hne
  | seeded h _ | answered _ h | released h => cases hs.symm.trans h
  | trained h _ => cases hs.symm.trans (views_of_ready h).1

section Checks
variable (scheme : Option Scheme) {w : CmdWord} {s : State}

theorem exec_reserved_word (hs : s.ctlState ≠ .faulted) (hop : 4 ≤ (opField w).toNat) :
    exec (decode scheme w) s = .next (s.raise .illegalCommand) := by
  rw [decode_reserved scheme hop]; exact unlessFaulted_else hs _

theorem exec_init_ready (hs : s.ctlState = .ready) (hop : opField w = 0#3) :
    exec (decode scheme w) s = .next (s.raise .protocolViolation) := by
  obtain ⟨a, ha⟩ := ctl_of_ready hs
  rw [decode_init scheme hop, decodeInit]
  split <;> exact whenUninit_ready ha _

theorem exec_notInit_uninit (hs : s.ctlState = .uninit)
    (hop : opField w = 1#3 ∨ opField w = 2#3 ∨ opField w = 3#3) :
    exec (decode scheme w) s = .next (s.raise .protocolViolation) := by
  have hctl := ctl_of_uninit hs
  rcases hop with hop | hop | hop
  · exact (exec_decode_predict scheme s hop).trans (whenReady_uninit hctl _)
  · cases hc : isConditionalField w
    · exact (exec_decode_trainNc scheme s hop hc).trans (whenReady_uninit hctl _)
    · exact (exec_decode_train scheme s hop hc).trans (whenReady_uninit hctl _)
  · rw [decode_cleanup scheme hop]; exact whenReady_uninit hctl _

theorem exec_unknownScheme_uninit (hs : s.ctlState = .uninit) (hop : opField w = 0#3)
    (hsel : 3 < (schemeSelField w).toNat) : exec (decode scheme w) s = .next (s.raise .configError) := by
  rw [decode_init scheme hop, decodeInit_unknown hsel]
  exact whenUninit_uninit (ctl_of_uninit hs) _

/-- INIT with a selector of 0 to 3 in UNINIT goes to READY with the scheme of that code (R203). -/
theorem exec_knownScheme_uninit (hs : s.ctlState = .uninit) (hop : opField w = 0#3)
    (hsel : (schemeSelField w).toNat ≤ 3) : ∃ a, schemeCode (schemeOf a) = (schemeSelField w).setWidth 2 ∧
      exec (decode scheme w) s = .next (s.becomeReady a) := by
  rw [decode_init scheme hop]
  generalize schemeSelField w = sel at hsel ⊢
  have hgate := whenUninit_uninit (ctl_of_uninit hs)
  obtain rfl | rfl | rfl | rfl : sel = 0#4 ∨ sel = 1#4 ∨ sel = 2#4 ∨ sel = 3#4 := by revert sel; decide
  exacts [⟨.static, rfl, hgate _⟩, ⟨.gshare gshareSeed, rfl, hgate _⟩, ⟨.tournament tournamentSeed, rfl, hgate _⟩,
    ⟨.custom customSeed, rfl, hgate _⟩]

/-- PREDICT and TRAIN in READY end in READY (R201, R202). -/
theorem exec_predictTrain_ready (hs : s.ctlState = .ready) (hop : opField w = 1#3 ∨ opField w = 2#3) :
    ∃ t, exec (decode scheme w) s = .next t ∧ t.ctlState = .ready := by
  obtain ⟨a, ha⟩ := ctl_of_ready hs
  rcases hop with hop | hop
  · obtain ⟨d, hd⟩ := exec_predict_ready (decode_predictPc scheme hop) hs
    exact ⟨_, hd, hs⟩
  · cases hc : isConditionalField w
    · exact ⟨_, (exec_decode_trainNc scheme s hop hc).trans (whenReady_ready ha _), hs⟩
    · have hexec := (exec_decode_train scheme s hop hc).trans (whenReady_ready ha _)
      rcases dispatchTrain_next s (pcField w) (outcomeField w) a with hd | ⟨a', -, hd⟩
      · exact ⟨_, hexec.trans hd, hs⟩
      · exact ⟨_, hexec.trans hd, rfl⟩

theorem exec_cleanup_ready (hs : s.ctlState = .ready) (hop : opField w = 3#3) :
    exec (decode scheme w) s = .next s.release := by
  obtain ⟨a, ha⟩ := ctl_of_ready hs
  rw [decode_cleanup scheme hop]; exact whenReady_ready ha _

end Checks

/-- The next states of one command word, by the check of R200 that decides: for each, the state it is met in and the
words it is met by. -/
inductive WordEffect (s : State) (w : CmdWord) : State → Prop where
  /-- Check 1: FAULTED ignores the word (R219). -/
  | ignored (hs : s.ctlState = .faulted) : WordEffect s w s.ignore
  /-- Check 2: a reserved OP (R214). -/
  | reserved (hs : s.ctlState ≠ .faulted) (hop : 4 ≤ (opField w).toNat) : WordEffect s w (s.raise .illegalCommand)
  /-- Check 3 in READY: INIT (R216). -/
  | initInReady (hs : s.ctlState = .ready) (hop : opField w = 0#3) : WordEffect s w (s.raise .protocolViolation)
  /-- Check 3 in UNINIT: PREDICT, TRAIN and CLEANUP (R217, R218). -/
  | notInitInUninit (hs : s.ctlState = .uninit) (hop : opField w = 1#3 ∨ opField w = 2#3 ∨ opField w = 3#3) :
      WordEffect s w (s.raise .protocolViolation)
  /-- INIT with a selector that names no scheme (R213). -/
  | unknownScheme (hs : s.ctlState = .uninit) (hop : opField w = 0#3) (hsel : 3 < (schemeSelField w).toNat) :
      WordEffect s w (s.raise .configError)
  /-- INIT of a scheme (R203). -/
  | seeded (hs : s.ctlState = .uninit) (hop : opField w = 0#3) (hsel : (schemeSelField w).toNat ≤ 3)
      {a : SchemeState} (hcode : schemeCode (schemeOf a) = (schemeSelField w).setWidth 2) :
      WordEffect s w (s.becomeReady a)
  /-- PREDICT or TRAIN, accepted (R201, R202). -/
  | accepted (hs : s.ctlState = .ready) (hop : opField w = 1#3 ∨ opField w = 2#3) {t : State}
      (ht : t.ctlState = .ready) : WordEffect s w t
  /-- CLEANUP, accepted (R211). -/
  | released (hs : s.ctlState = .ready) (hop : opField w = 3#3) : WordEffect s w s.release

/-- Every command word comes to a next state, by the check that decides it. -/
theorem exec_wordEffect (scheme : Option Scheme) (w : CmdWord) (s : State) :
    ∃ t, exec (decode scheme w) s = .next t ∧ WordEffect s w t := by
  rcases hs : s.ctlState with _ | _ | _
  case faulted => exact ⟨_, exec_faulted hs _, .ignored hs⟩
  case uninit =>
    rcases opField_cases w with hop | hop | hop | hop | hop
    · rcases Nat.lt_or_ge 3 (schemeSelField w).toNat with hsel | hsel
      · exact ⟨_, exec_unknownScheme_uninit scheme hs hop hsel, .unknownScheme hs hop hsel⟩
      · obtain ⟨a, hcode, hexec⟩ := exec_knownScheme_uninit scheme hs hop hsel
        exact ⟨_, hexec, .seeded hs hop hsel hcode⟩
    · exact ⟨_, exec_notInit_uninit scheme hs (.inl hop), .notInitInUninit hs (.inl hop)⟩
    · exact ⟨_, exec_notInit_uninit scheme hs (.inr (.inl hop)), .notInitInUninit hs (.inr (.inl hop))⟩
    · exact ⟨_, exec_notInit_uninit scheme hs (.inr (.inr hop)), .notInitInUninit hs (.inr (.inr hop))⟩
    · have hne : s.ctlState ≠ .faulted := by simp [hs]
      exact ⟨_, exec_reserved_word scheme hne hop, .reserved hne hop⟩
  case ready =>
    rcases opField_cases w with hop | hop | hop | hop | hop
    · exact ⟨_, exec_init_ready scheme hs hop, .initInReady hs hop⟩
    · obtain ⟨t, hexec, ht⟩ := exec_predictTrain_ready scheme hs (.inl hop)
      exact ⟨t, hexec, .accepted hs (.inl hop) ht⟩
    · obtain ⟨t, hexec, ht⟩ := exec_predictTrain_ready scheme hs (.inr hop)
      exact ⟨t, hexec, .accepted hs (.inr hop) ht⟩
    · exact ⟨_, exec_cleanup_ready scheme hs hop, .released hs hop⟩
    · have hne : s.ctlState ≠ .faulted := by simp [hs]
      exact ⟨_, exec_reserved_word scheme hne hop, .reserved hne hop⟩

/-- A step with a command word takes the word and comes to one of the word's next states. -/
theorem step_wordEffect {s : State} {w : CmdWord} {rest : List HostEvent} (hin : s.inputs = .command w :: rest) :
    ∃ t, step s = .next t ∧ WordEffect { s with inputs := rest } w t := by
  obtain ⟨t, hexec, heff⟩ := exec_wordEffect s.scheme w { s with inputs := rest }
  exact ⟨t, (step_command hin).trans hexec, heff⟩

/-! The transitions (R215) and the fault a word ends with (R235), by the check that decides it. -/

section Inversion
variable {s t : State} {w : CmdWord} (h : WordEffect s w t)
include h

theorem WordEffect.ctlState_of_faulted (hs : s.ctlState = .faulted) : t.ctlState = .faulted := by
  cases h with
  | ignored => exact hs
  | reserved | initInReady | notInitInUninit | unknownScheme => rfl
  | seeded hs' | accepted hs' | released hs' => cases hs.symm.trans hs'

theorem WordEffect.ctlState_of_uninit (hs : s.ctlState = .uninit) :
    t.ctlState = if opField w = 0#3 ∧ (schemeSelField w).toNat ≤ 3 then .ready else .faulted := by
  cases h with
  | reserved _ hop | notInitInUninit _ hop =>
    have hne : opField w ≠ 0#3 := fun h0 => by simp [h0] at hop
    simp [hne]
  | unknownScheme _ hop hsel => simp [hop, Nat.not_le.mpr hsel]
  | seeded _ hop hsel => simp [hop, hsel]
  | ignored hs' | initInReady hs' | accepted hs' | released hs' => cases hs.symm.trans hs'

theorem WordEffect.ctlState_of_ready (hs : s.ctlState = .ready) : t.ctlState =
    if opField w = 1#3 ∨ opField w = 2#3 then .ready else if opField w = 3#3 then .uninit else .faulted := by
  cases h with
  | reserved _ hop =>
    have hne {op : BitVec 3} (hlt : ¬ 4 ≤ op.toNat) : opField w ≠ op := fun h0 => hlt (h0 ▸ hop)
    simp [hne]
  | initInReady _ hop => simp [hop]
  | accepted _ hop ht => simp [hop, ht]
  | released _ hop => simp [hop]
  | ignored hs' | notInitInUninit hs' | unknownScheme hs' | seeded hs' => cases hs.symm.trans hs'

/-- Each check rules out those before it. -/
theorem WordEffect.faultCode_eq : t.faultCode =
    if s.ctlState = .faulted then s.faultCode
    else if 4 ≤ (opField w).toNat then some .illegalCommand
    else if (opField w = 0#3 ∧ s.ctlState = .ready) ∨ (opField w ≠ 0#3 ∧ s.ctlState = .uninit) then
      some .protocolViolation
    else if opField w = 0#3 ∧ 3 < (schemeSelField w).toNat then some .configError
    else none := by
  cases h with
  | ignored hs => simp [hs]
  | reserved hs hop => simp [hs, hop]
  | initInReady hs hop => simp [hs, hop]
  | notInitInUninit hs hop => rcases hop with hop | hop | hop <;> simp [hs, hop]
  | unknownScheme hs hop hsel => simp [hs, hop, hsel]
  | seeded hs hop hsel => simp [hs, hop, Nat.not_lt.mpr hsel]
  | accepted hs hop ht => rcases hop with hop | hop <;> simp [hs, hop, ht, faultCode_eq_none]
  | released hs hop => simp [hs, hop]

end Inversion

/-- Settles O20: a step without a command by its own law, a command word by the transitions of its effect. -/
theorem controlFsmTransitions : Obligations.ControlFsmTransitions := by
  intro s t hstep
  rcases hin : s.inputs with _ | ⟨_ | _, rest⟩
  case nil => rw [step_nil hin] at hstep; cases hstep; rfl
  case cons.reset => rw [step_reset hin] at hstep; cases hstep; rfl
  case cons.command w =>
    obtain ⟨t', hstep', heff⟩ := step_wordEffect hin
    obtain rfl : t' = t := by rw [hstep] at hstep'; cases hstep'; rfl
    rcases hs : s.ctlState with _ | _ | _
    · exact heff.ctlState_of_uninit hs
    · exact heff.ctlState_of_ready hs
    · exact heff.ctlState_of_faulted hs

/-! FAULTED until reset (R219, R238). -/

/-- A step with a command word in FAULTED takes the word and keeps the block. -/
theorem step_command_faulted {s : State} {w : CmdWord} {rest : List HostEvent} (hs : s.ctlState = .faulted)
    (hin : s.inputs = .command w :: rest) : step s = .next (State.ignore { s with inputs := rest }) :=
  (step_command hin).trans (exec_faulted (s := { s with inputs := rest }) hs _)

/-- Settles O23: by induction over the words, each of whose steps keeps the block (`step_command_faulted`). -/
theorem faultedUntilReset : Obligations.FaultedUntilReset := by
  intro ws
  induction ws with
  | nil => exact fun s _ _ rest _ hin => ⟨s, rfl, rfl, rfl, hin⟩
  | cons w ws ih =>
    intro s c left rest hs hin
    have hstep := step_command_faulted (views_of_faulted hs).1 hin
    obtain ⟨t, hrun, hctl, hcfg, hrest⟩ := ih (State.ignore { s with inputs := _ }) c left rest hs rfl
    exact ⟨t, (run_succ ws.length hstep).trans hrun, hctl, hcfg, hrest⟩

/-- What is answered in FAULTED is the stored code (R219). -/
theorem ignore_of_faulted {s : State} {c : Cause} {left : Option SchemeState} (hs : s.ctl = .faulted c left) :
    s.ignore = { s with resp := some (faultAnswer c) } := by
  obtain ⟨-, -, -, hcode, hflag⟩ := views_of_faulted hs
  exact state_ext rfl rfl (by simp [faultAnswer, hcode, hflag]) rfl

/-- Settles O12: an instruction is ignored (`exec_faulted`), and an idle step or a word keeps FAULTED (O20). -/
theorem faultedIgnoresCommands : Obligations.FaultedIgnoresCommands := by
  constructor
  · intro i s c left hs
    rw [exec_faulted (views_of_faulted hs).1, ignore_of_faulted hs]
  · intro s t hs hstep ht
    have hnext := controlFsmTransitions s t hstep
    rcases hin : s.inputs with _ | ⟨_ | _, rest⟩ <;> simp only [hin, hs] at hnext
    case nil => exact absurd hnext ht
    case cons.command => exact absurd hnext ht
    case cons.reset => exact ⟨rest, rfl⟩

/-! The faults of UNINIT and READY (R213, R214, R216 to R218, R235). -/

/-- Settles O13: the instruction does what its word does, and the word is met by check 3. -/
theorem wrongStateTakesProtocolViolation : Obligations.WrongStateTakesProtocolViolation := by
  constructor
  · intro i s a hwf hop hs
    obtain ⟨hready, -, hactive, -, -⟩ := views_of_ready hs
    rw [exec_eq_exec_decode hwf none s, exec_init_ready none hready hop, ← hactive]; rfl
  · intro i s hwf hop hs
    obtain ⟨huninit, -, hactive, -, -⟩ := views_of_uninit hs
    rw [exec_eq_exec_decode hwf none s, exec_notInit_uninit none huninit hop, ← hactive]; rfl

/-- Settles O14: check 2 passes over no state but FAULTED. -/
theorem reservedOpTakesIllegalCommand : Obligations.ReservedOpTakesIllegalCommand :=
  fun _ _ hs => unlessFaulted_else hs _

/-- Settles O15: UNINIT accepts the INIT, whose selector names no scheme; there is no scheme state to leave. -/
theorem unknownSchemeTakesConfigError : Obligations.UnknownSchemeTakesConfigError := by
  intro s sel hs
  have hactive : s.active = none := (views_of_uninit hs).2.2.1
  rw [← hactive]; exact whenUninit_uninit hs _

/-- Settles O16: the step comes to one of the word's next states, whose code is the first check's that holds. -/
theorem faultPriorityOrder : Obligations.FaultPriorityOrder := by
  intro s w rest
  obtain ⟨t, hstep, heff⟩ := step_wordEffect (s := { s with inputs := .command w :: rest }) rfl
  exact ⟨t, hstep, heff.faultCode_eq⟩

/-! INIT and CLEANUP (R203 to R207, R211, R212, R263). -/

/-- Settles O28: UNINIT accepts the INIT. -/
theorem initStaticSeedsNothing : Obligations.InitStaticSeedsNothing :=
  fun _ hs => whenUninit_uninit hs _

/-- Settles O29: UNINIT accepts the INIT, whose table lists no cell that differs from WN. -/
theorem initGshareSeedsTables : Obligations.InitGshareSeedsTables :=
  fun _ hs => ⟨gshareSeed, whenUninit_uninit hs _, rfl, fun _ _ => rfl⟩

/-- Settles O30: UNINIT accepts the INIT, whose tables list no entry that differs from the seed. -/
theorem initTournamentSeedsTables : Obligations.InitTournamentSeedsTables :=
  fun _ hs => ⟨tournamentSeed, whenUninit_uninit hs _, fun _ _ => rfl, fun _ _ => rfl, fun _ _ => rfl,
    fun _ _ => rfl, rfl⟩

/-- Settles O31: UNINIT accepts the INIT, whose tables list no entry that differs from the seed. -/
theorem initCustomSeedsTables : Obligations.InitCustomSeedsTables :=
  fun _ hs => ⟨customSeed, whenUninit_uninit hs _, fun _ _ => rfl, fun _ _ => rfl, fun _ _ => rfl,
    fun _ _ => rfl, rfl⟩

/-- Settles O33: the reset leads to UNINIT, which accepts the INIT of a known scheme. -/
theorem bootReachesReady : Obligations.BootReachesReady := by
  intro s w rest hin hop hsel
  obtain ⟨a, hcode, hexec⟩ := exec_knownScheme_uninit (s := State.hardwareReset { s with inputs := rest })
    none rfl hop hsel
  have hrun := (run_succ 1 (step_reset hin)).trans (run_succ 0 ((step_command rfl).trans hexec))
  exact ⟨_, a, hrun, rfl, hcode, rfl, rfl, rfl⟩

/-- A step with a CLEANUP word in READY takes the word and releases the scheme state (R211). -/
theorem step_cleanup_ready {s : State} {w : CmdWord} {rest : List HostEvent} (hs : s.ctlState = .ready)
    (hop : opField w = 3#3) (hin : s.inputs = .command w :: rest) :
    step s = .next (State.release { s with inputs := rest }) :=
  (step_command hin).trans (exec_cleanup_ready s.scheme hs hop)

/-- Settles O27: a reset, and a CLEANUP in READY, leave of the two machines one and the same state. -/
theorem nothingPersists : Obligations.NothingPersists := by
  intro s s' hcfg hinputs hcase n
  rcases hcase with ⟨rest, hin⟩ | ⟨hs, hs', w, rest, hop, hin⟩
  · rw [run_succ n (step_reset hin), run_succ n (step_reset (hinputs ▸ hin))]
    exact congrArg (core.run n) (state_ext hcfg rfl rfl rfl)
  · rw [run_succ n (step_cleanup_ready hs hop hin), run_succ n (step_cleanup_ready hs' hop (hinputs ▸ hin))]
    exact congrArg (core.run n) (state_ext hcfg rfl rfl rfl)

/-! PREDICT and TRAIN where they change nothing (R208 to R210). -/

/-- Settles O34: PREDICT.STATIC is the active scheme's rule, which answers Taken. -/
theorem predictStaticAnswersTaken : Obligations.PredictStaticAnswersTaken := by
  intro s pc target d hs
  rw [← respond_of_ready hs]; exact whenReady_ready hs _

/-- Settles O39: TRAIN.STATIC is the active scheme's rule, which answers and does nothing else. -/
theorem trainStaticChangesNothing : Obligations.TrainStaticChangesNothing := by
  intro s pc target o c r d hs
  rw [← respond_of_ready hs]; exact whenReady_ready hs _

/-- Settles O40: READY accepts the TRAIN, which then only answers; UNINIT does not accept it. -/
theorem trainNcChangesNothing : Obligations.TrainNcChangesNothing := by
  intro s pc target o c r d
  constructor
  · intro hs
    obtain ⟨a, ha⟩ := ctl_of_ready hs
    rw [← respond_of_ready ha]; exact whenReady_ready ha _
  · intro hs
    have hctl := ctl_of_uninit hs
    have hactive : s.active = none := (views_of_uninit hctl).2.2.1
    rw [← hactive]; exact whenReady_uninit hctl _

/-! How a run ends (R276). -/

/-- A script with a command has a last one, with nothing presented after it. -/
theorem exists_last_command {script : Script} (h : ∃ w, some w ∈ script) :
    ∃ (before after : Script) (w : CmdWord), script = before ++ some w :: after ∧ ∀ move ∈ after, move = none := by
  induction script with
  | nil => simp at h
  | cons move rest ih =>
    by_cases hrest : ∃ w, some w ∈ rest
    · obtain ⟨before, after, w, rfl, hafter⟩ := ih hrest
      exact ⟨move :: before, after, w, rfl, hafter⟩
    · obtain ⟨w, hw⟩ := h
      obtain rfl : some w = move := (List.mem_cons.mp hw).resolve_right fun hmem => hrest ⟨w, hmem⟩
      exact ⟨[], rest, w, rfl, fun m hm => Option.eq_none_iff_forall_ne_some.mpr fun v hv => hrest ⟨v, hv ▸ hm⟩⟩

/-- The block is in UNINIT after a word exactly if the word was an accepted CLEANUP. -/
theorem WordEffect.uninit_iff {s t : State} {w : CmdWord} (h : WordEffect s w t) :
    t.ctlState = .uninit ↔ opField w = 3#3 ∧ s.ctlState = .ready := by
  rcases hs : s.ctlState with _ | _ | _
  · rw [h.ctlState_of_uninit hs]; split <;> simp
  · rw [h.ctlState_of_ready hs]; grind
  · simp [h.ctlState_of_faulted hs]

/-- A run whose last command is `w` ends in the control state that `w` left. -/
theorem runOf_last_command {s t : State} {before after : Script} {w : CmdWord} {u : State}
    (hu : runOf s before = some u) (hafter : ∀ move ∈ after, move = none)
    (ht : runOf s (before ++ some w :: after) = some t) :
    ∃ v, WordEffect { u with inputs := [] } w v ∧ t.ctl = v.ctl := by
  obtain ⟨v, hexec, heff⟩ := exec_wordEffect u.scheme w { u with inputs := [] }
  have hv := afterScript_command hu w hexec
  rw [runOf, List.append_cons, afterScript_append hv] at ht
  exact ⟨v, heff, afterScript_idle hafter ht⟩

section Ends
variable {s t : State} {script : Script} (hrun : runOf s script = some t)
include hrun

theorem endedWell_iff : EndedWell s script ↔ (∃ w, some w ∈ script) ∧ t.ctlState = .uninit := by
  constructor
  · rintro ⟨before, after, w, u, rfl, hafter, hop, hu, hready⟩
    obtain ⟨v, heff, hctl⟩ := runOf_last_command hu hafter hrun
    have hv : v.ctlState = .uninit := heff.uninit_iff.mpr ⟨hop, hready⟩
    exact ⟨⟨w, by simp⟩, by rw [State.ctlState, hctl]; exact hv⟩
  · rintro ⟨hcommand, ht⟩
    obtain ⟨before, after, w, rfl, hafter⟩ := exists_last_command hcommand
    obtain ⟨u, hu⟩ := afterScript_next s.hardwareReset before
    obtain ⟨v, heff, hctl⟩ := runOf_last_command hu hafter hrun
    have hv : v.ctlState = .uninit := by rw [State.ctlState, ← hctl]; exact ht
    obtain ⟨hop, hready⟩ := heff.uninit_iff.mp hv
    exact ⟨before, after, w, u, rfl, hafter, hop, hu, hready⟩

theorem goneWrong_iff : GoneWrong s script ↔ t.ctlState = .faulted := by simp [GoneWrong, hrun]

theorem unfinished_iff : Unfinished s script ↔ t.ctlState = .ready := by simp [Unfinished, hrun]

/-- A further step in which the host sends nothing leaves the control state. -/
theorem runOf_idle : ∃ t', runOf s (script ++ [none]) = some t' ∧ t'.ctlState = t.ctlState := by
  obtain ⟨t', ht'⟩ := afterScript_next t [none]
  have hctl : t'.ctl = t.ctl := afterScript_idle (by simp) ht'
  exact ⟨t', (afterScript_append hrun _).trans ht', by simp only [State.ctlState, hctl]⟩

end Ends

/-- Settles O57: how a run ends is read off the control state it comes to, which a step with nothing does not change. -/
theorem runsEndWellWrongOrUnfinished : Obligations.RunsEndWellWrongOrUnfinished := by
  intro s script
  obtain ⟨t, hrun⟩ := afterScript_next s.hardwareReset script
  obtain ⟨t', hrun', hsame⟩ := runOf_idle hrun
  refine ⟨t, hrun, ?_, goneWrong_iff hrun, unfinished_iff hrun, ?_, ?_, ?_, ?_⟩
  · have hcode (h : t.ctlState = .uninit) : t.faultCode = none := faultCode_eq_none (by simp [h])
    rw [endedWell_iff hrun, and_congr_right_iff]
    exact fun _ => ⟨fun h => ⟨h, hcode h⟩, And.left⟩
  · intro hcommand
    rw [endedWell_iff hrun, goneWrong_iff hrun, unfinished_iff hrun]
    rcases t.ctlState with _ | _ | _ <;> simp [hcommand]
  · simp [endedWell_iff hrun, endedWell_iff hrun', hsame]
  · rw [goneWrong_iff hrun, goneWrong_iff hrun', hsame]
  · rw [unfinished_iff hrun, unfinished_iff hrun', hsame]

/-- Settles O32: READY accepts the CLEANUP, and it is the run's last command. -/
theorem cleanupReleasesEverything : Obligations.CleanupReleasesEverything := by
  constructor
  · exact fun s a hs => whenReady_ready hs _
  · intro s t script w hrun ht hop
    have hlast := afterScript_command hrun w (exec_cleanup_ready t.scheme (s := { t with inputs := [] }) ht hop)
    exact ⟨⟨script, [], w, t, rfl, by simp, hop, hrun, ht⟩, _, hlast, rfl, rfl⟩

/-! The host's ordering duty (R270). -/

/-- The branch that is pending after an event the host may send: the one a PREDICT has just asked about. -/
def pendingAfter : HostEvent → Option Addr
  | .command w => if isPredictWord w then some (pcField w) else none
  | .reset => none

theorem pendingAfter_eq_some {e : HostEvent} {pc : Addr} (h : pendingAfter e = some pc) :
    ∃ w, e = .command w ∧ isPredictWord w = true ∧ pcField w = pc := by
  cases e with
  | reset => cases h
  | command w =>
    rw [pendingAfter, Option.ite_none_right_eq_some, Option.some_inj] at h
    exact ⟨w, rfl, h⟩

/-- Events that keep the duty keep it after the first of them, with what that one leaves pending. -/
theorem keepsOrder_tail {pending : Option Addr} {e : HostEvent} {rest : List HostEvent}
    (h : keepsOrder pending (e :: rest) = true) : keepsOrder (pendingAfter e) rest = true := by
  cases e with
  | reset => exact h
  | command w =>
    rw [keepsOrder] at h
    by_cases hp : isPredictWord w = true
    · rw [if_pos hp, Bool.and_eq_true] at h
      rw [pendingAfter, if_pos hp]; exact h.2
    · rw [if_neg hp] at h
      rw [pendingAfter, if_neg hp]
      split at h
      · exact (Bool.and_eq_true_iff.mp h).2
      · split at h
        · exact (Bool.and_eq_true_iff.mp h).2
        · exact h

/-- A conditional TRAIN that keeps the duty is of the pending branch. -/
theorem keepsOrder_conditionalTrain {pending : Option Addr} {w : CmdWord} {rest : List HostEvent}
    (hw : isConditionalTrainWord w = true) (h : keepsOrder pending (.command w :: rest) = true) :
    pending = some (pcField w) := by
  have hpredict : isPredictWord w = false := by
    simp only [isConditionalTrainWord, Bool.and_eq_true, decide_eq_true_eq] at hw
    simp [isPredictWord, hw.1]
  simp only [keepsOrder, hpredict, hw, Bool.false_eq_true, if_false, if_true, Bool.and_eq_true,
    decide_eq_true_eq] at h
  exact h.1

/-- What is pending where a list of events goes on is what its last event left pending, or what was at first. -/
theorem keepsOrder_append {pending : Option Addr} {before after : List HostEvent}
    (h : keepsOrder pending (before ++ after) = true) :
    keepsOrder ((before.getLast?.map pendingAfter).getD pending) after = true := by
  induction before generalizing pending with
  | nil => exact h
  | cons e rest ih =>
    have htail := ih (keepsOrder_tail h)
    rcases rest with _ | ⟨e', rest⟩
    · exact htail
    · rwa [List.getLast?_cons_cons]

/-- Settles O58: what is pending at the TRAIN is its own branch, and the event just before it left that pending. -/
theorem orderingDutyPairsTrainWithPredict : Obligations.OrderingDutyPairsTrainWithPredict := by
  intro before rest w horder hw
  have hpending := keepsOrder_conditionalTrain hw (keepsOrder_append horder)
  rcases List.eq_nil_or_concat' before with rfl | ⟨earlier, e, rfl⟩
  · cases hpending
  · rw [List.getLast?_concat] at hpending
    obtain ⟨wp, rfl, hwp, hpc⟩ := pendingAfter_eq_some hpending
    exact ⟨earlier, wp, rfl, hwp, hpc⟩

end Sys2Proof.Machine
end

section
/-! Precise fault entry (spec 60_exceptions R236, R237): the one way into FAULTED is `State.raise`. -/

namespace Sys2Proof.Machine

/-- `raise` written out (R236): the two control registers and the answer, the scheme state being left as it was. -/
theorem raise_eq (s : State) (c : Cause) :
    s.raise c = { s with ctl := .faulted c s.active, resp := some (faultAnswer c) } := rfl

/-- An effect that enters FAULTED is a fault taken. -/
theorem Effect.exists_eq_raise {s t : State} (h : Effect s t) (hs : s.ctlState ≠ .faulted)
    (ht : t.ctlState = .faulted) : ∃ c, t = s.raise c := by
  cases h with
  | ignored hf => exact absurd hf hs
  | raised => exact ⟨_, rfl⟩
  | answered => exact absurd ht hs
  | seeded | trained | released => cases ht

/-- Settles O17: the instruction's effect is a fault taken (`Effect.exists_eq_raise`), which writes `raise_eq`. -/
theorem faultEntryIsPrecise : Obligations.FaultEntryIsPrecise := by
  intro i s t hexec hs ht
  obtain ⟨c, rfl⟩ := (effect_of_exec hexec).exists_eq_raise hs ht
  exact ⟨c, raise_eq s c⟩

end Sys2Proof.Machine
end
